-- ==== Sys2Proof/Word.lean ====
section
/-! DEFINITION. The words of the model: bytes, 32-bit words, and the type of a payload buffer. -/

namespace Sys2Proof

/-- R9: a byte is 8 bits; a character is one byte (R44). -/
abbrev Byte := BitVec 8

/-- R110: the SHA-1 word. -/
abbrev Word32 := BitVec 32

/-- R40: a payload buffer, CORE's only memory: the lanes as (lane index, byte) pairs in one canonical form (lane indexes
strictly rising, no pair that holds what an unlisted lane reads as). The operations on it are in Machine/Memory.lean. -/
abbrev Buffer := List Host.Cell

end Sys2Proof
end

