-- ==== Sys2Proof/Machine/Bytes.lean ====
section
/-! DEFINITION. Byte order (spec/00_scope.md R8, R9; spec/20_memory.md R43, R45): big-endian values inside CORE, and
lane 0 lowest in a port vector. -/

namespace Sys2Proof

/-- R9: `bytes_be(v, n)`: element `i` is `(v >> (8*(n-1-i))) & 0xFF`, the most significant byte first. -/
def bytesBE (v n : Nat) : List Byte :=
  (List.range n).map fun i => BitVec.ofNat 8 (v >>> (8 * (n - 1 - i)))

/-- R9: `be32(b) = b[0]*2^24 + b[1]*2^16 + b[2]*2^8 + b[3]`. -/
def be32 (b : List Byte) : Nat :=
  (b.getD 0 0).toNat * 2 ^ 24 + (b.getD 1 0).toNat * 2 ^ 16 + (b.getD 2 0).toNat * 2 ^ 8 + (b.getD 3 0).toNat

/-- R8: `ROTL_32(x, n) = ((x << n) | (x >> (32 - n))) mod 2^32` for `0 < n < 32`. -/
def rotl32 (x : Word32) (n : Nat) : Word32 :=
  (x <<< n) ||| (x >>> (32 - n))

/-- R45: a sequence of lanes as one vector: lane `i` at bits `8*i+7 : 8*i`. -/
def lanesToNat : List Byte → Nat
  | [] => 0
  | b :: t => b.toNat + 256 * lanesToNat t

/-- R45: the first `n` lanes of a vector, lane 0 first. -/
def natToLanes : Nat → Nat → List Byte
  | 0, _ => []
  | n + 1, w => BitVec.ofNat 8 w :: natToLanes n (w / 256)

end Sys2Proof
end

