-- ==== Sys2Proof/Machine/Memory.lean ====
section
/-! DEFINITION. The payload buffers (spec/20_memory.md R40 to R42): reading and writing a lane, MemRead and MemWrite,
and the canonical form every operation keeps. -/

namespace Sys2Proof

/-- What an unlisted lane reads as. DESIGN CHOICE (log entry 5): a lane that holds 0x00 is not listed. On the request
side this is a form of writing the lanes down and loses nothing. On the response side a lane at or above the length
field has no value (R42) and is never read through this (Machine/Ports.lean). -/
def Buffer.unlisted : Byte := 0x00

/-- The byte in lane `i`. -/
def Buffer.read : Buffer → Nat → Byte
  | [], _ => Buffer.unlisted
  | (a, b) :: t, i => if a = i then b else Buffer.read t i

/-- Puts `v` in lane `i`, keeping the canonical form: writing what an unlisted lane reads as removes the pair. -/
def Buffer.write : Buffer → Nat → Byte → Buffer
  | [], i, v => if v = Buffer.unlisted then [] else [(i, v)]
  | (a, b) :: t, i, v =>
    if i < a then (if v = Buffer.unlisted then (a, b) :: t else (i, v) :: (a, b) :: t)
    else if i = a then (if v = Buffer.unlisted then t else (i, v) :: t)
    else (a, b) :: Buffer.write t i v

/-- The canonical form of a buffer of `cap` lanes: lane indexes below `cap` and strictly rising, no pair holding what an
unlisted lane reads as. -/
def Buffer.wf (cap : Nat) : Buffer → Bool
  | [] => true
  | (a, b) :: t =>
    decide (a < cap) && decide (b ≠ Buffer.unlisted) && t.all (fun c => decide (a < c.1)) && Buffer.wf cap t

/-- R41: `MemRead(buf, i, n)`, the byte sequence `buf[i], ..., buf[i+n-1]`. -/
def memRead (buf : Buffer) (i n : Nat) : List Byte :=
  (List.range n).map fun k => Buffer.read buf (i + k)

/-- R41: `MemWrite(buf, i, n, v)` with `n` the length of `v`: sets those lanes to the bytes of `v`. -/
def memWrite (buf : Buffer) (i : Nat) : List Byte → Buffer
  | [] => buf
  | b :: t => memWrite (Buffer.write buf i b) (i + 1) t

/-- A buffer whose lanes from 0 on hold these bytes (lane 0 the first, R41). -/
def Buffer.ofBytes (b : List Byte) : Buffer := memWrite [] 0 b

/-- R45: the buffer a port vector stands for, lane `i` being bits `8*i+7 : 8*i`: at most `n` lanes from lane `i` on, read
from `w` upwards. -/
def Buffer.ofVector : Nat → Nat → Nat → Buffer
  | 0, _, _ => []
  | n + 1, i, w =>
    if w = 0 then []
    else if BitVec.ofNat 8 w = Buffer.unlisted then Buffer.ofVector n (i + 1) (w / 256)
    else (i, BitVec.ofNat 8 w) :: Buffer.ofVector n (i + 1) (w / 256)

end Sys2Proof
end

