-- ==== Sys2Proof/Config.lean ====
section
/-! DEFINITION. The implementation parameters of CORE (spec/00_scope.md R6, R7) and the free values of the model:
constants without a body, so that no proof can know them.

R7 makes the capacity `K` an argument of the model, with the default 32 and the constraint `K >= 4`. So every capacity and
width here is a function of `K`, and so is everything that depends on one. The definitions whose names and types the host
fixes (`exec`, `step`, `decodeTableWord`, `withFetchWord`, `core`) are the instance `Config.K`; `execFor`, `stepFor` and
`coreFor` of Machine/Instance.lean are every instance (log entry 2). -/

namespace Sys2Proof

/-- R7, D6: the default capacity in 40-bit Base32 groups, the one of `exec`, `step` and `core` (log entry 2). -/
abbrev Config.K : Nat := 32

/-- R7: capacity of a byte payload, always `5*K`. -/
abbrev Config.KEY_MAX (K : Nat) : Nat := 5 * K

/-- R7: capacity of a text payload, always `8*K`. -/
abbrev Config.TXT_MAX (K : Nat) : Nat := 8 * K

/-- R7: width of a byte-payload length field, `ceil(log2(KEY_MAX+1))`; see `Config.dlenW_eq`. -/
abbrev Config.DLEN_W (K : Nat) : Nat := Nat.log2 (Config.KEY_MAX K) + 1

/-- R7: width of a text-payload length field, `ceil(log2(TXT_MAX+1))`; see `Config.tlenW_eq`. -/
abbrev Config.TLEN_W (K : Nat) : Nat := Nat.log2 (Config.TXT_MAX K) + 1

/-- R7: widths fixed by the spec. -/
abbrev Config.NOW_W : Nat := 64
abbrev Config.PERIOD_W : Nat := 32
abbrev Config.CTR_W : Nat := 64
abbrev Config.DIGITS_W : Nat := 4

/-- R6: the length of a digest in bytes, and of the counter block. -/
abbrev Config.DIGEST_LEN : Nat := 20
abbrev Config.CTR_BLOCK_LEN : Nat := 8

theorem Config.four_le_K : 4 ≤ Config.K := by decide

/-- The number of bits of `n >= 1` is `ceil(log2(n+1))`. -/
theorem Config.log2_add_one {n : Nat} (h : n ≠ 0) : Nat.log2 n + 1 = Nat.clog 2 (n + 1) := by
  refine (Nat.le_antisymm ?_ ?_).symm
  · exact (Nat.clog_le_iff_le_pow (by decide)).mpr Nat.lt_log2_self
  · exact (Nat.lt_clog_iff_pow_lt (by decide)).mpr (Nat.lt_succ_of_le (Nat.log2_self_le h))
theorem Config.dlenW_eq {K : Nat} (h : 4 ≤ K) : Config.DLEN_W K = Nat.clog 2 (Config.KEY_MAX K + 1) :=
  Config.log2_add_one (show 5 * K ≠ 0 by omega)
theorem Config.tlenW_eq {K : Nat} (h : 4 ≤ K) : Config.TLEN_W K = Nat.clog 2 (Config.TXT_MAX K + 1) :=
  Config.log2_add_one (show 8 * K ≠ 0 by omega)

/-- R7: the widths of the default instance. -/
theorem Config.widths_default : Config.DLEN_W Config.K = 8 ∧ Config.TLEN_W Config.K = 9 := by decide

/-- R7, R200, D20: `LATENCY(cmd)` is OPEN. A free value (log entry 3): a function of the instance and of the request,
given as its packed word, about which nothing is known. `Config.latency` adds the bound `>= 1` and is finite by its type. -/
opaque Config.latencyExtra : Nat → Nat → Nat

/-- R23, R200: the number of clock edges from ACCEPT to COMPLETE of the request with this packed word. -/
def Config.latency (K word : Nat) : Nat := Config.latencyExtra K word + 1

/-- The response registers of spec/10_state.md R26, as names. -/
inductive RespReg where
  | err | rtextLen | rtext | rdataLen | rdata | rval | rctr
deriving DecidableEq, Repr

/-- R26, R42, R173, U5, U6: what a response register (or a lane of one) shows at the port while it has no value: any
value. A free value (log entry 4), fresh at every clock edge: it depends on the register, the lane and the number of
clock edges so far. -/
opaque Config.freePort (w : Nat) (r : RespReg) (lane edge : Nat) : BitVec w

end Sys2Proof
end

