-- ==== Sys2Proof/Syntax.lean ====
section
/-! DEFINITION. The request record (spec/30_encoding.md R60) and the operations with the operands each reads (R63, R75):
one constructor per row of spec/opcode_table.json.

A length field has DLEN_W or TLEN_W bits, which depend on the instance (R7), so its type is Nat and its width is part of
being well-formed at an instance (WellFormed.lean); the port carries no other value (log entry 14). -/

namespace Sys2Proof

/-- R60: the one request format. All fields are presented in parallel on the request port. -/
structure Request where
  op      : BitVec 3
  digits  : BitVec Config.DIGITS_W
  now     : BitVec Config.NOW_W
  period  : BitVec Config.PERIOD_W
  ctr     : BitVec Config.CTR_W
  textLen : Nat
  text    : Buffer
  dataLen : Nat
  data    : Buffer
deriving DecidableEq, Repr

/-- The operations of CORE (R63), each with the fields it reads and nothing else: a payload as its length field and its
lanes. A length field above the capacity is a legal operand here; the operation answers it with BadLength (R66). -/
inductive Instr where
  /-- op 0, R102 -/
  | b32enc (dataLen : Nat) (data : Buffer)
  /-- op 1, R97 -/
  | b32dec (textLen : Nat) (text : Buffer)
  /-- op 2, R118 -/
  | hmac (dataLen : Nat) (data : Buffer) (ctr : BitVec Config.CTR_W)
  /-- op 3, R136 -/
  | trunc (dataLen : Nat) (data : Buffer) (digits : BitVec Config.DIGITS_W)
  /-- op 4, R151 -/
  | tstep (now : BitVec Config.NOW_W) (period : BitVec Config.PERIOD_W)
  /-- op 5, R138 -/
  | hotp (dataLen : Nat) (data : Buffer) (ctr : BitVec Config.CTR_W) (digits : BitVec Config.DIGITS_W)
  /-- op 6, R153 -/
  | totp (textLen : Nat) (text : Buffer) (now : BitVec Config.NOW_W) (period : BitVec Config.PERIOD_W)
      (digits : BitVec Config.DIGITS_W)
  /-- op 7, R65: the reserved code, answered with IllegalOp -/
  | reserved7
deriving DecidableEq, Repr

end Sys2Proof
end

