-- ==== Sys2Proof/WellFormed.lean ====
section
/-! DEFINITION. Which requests and operations are well-formed at the instance of capacity `K` (spec/00_scope.md R7): a length
field fits its width, and a payload buffer is in canonical form and has only the lanes the port has (spec/20_memory.md R40).
Every other field is bounded by its type. -/

namespace Sys2Proof

/-- R7, R40, R60: the byte payload of an instance: a length field of DLEN_W bits, KEY_MAX lanes. -/
def dataWf (K len : Nat) (data : Buffer) : Bool :=
  decide (len < 2 ^ Config.DLEN_W K) && Buffer.wf (Config.KEY_MAX K) data

/-- R7, R40, R60: the text payload of an instance: a length field of TLEN_W bits, TXT_MAX lanes. -/
def textWf (K len : Nat) (text : Buffer) : Bool :=
  decide (len < 2 ^ Config.TLEN_W K) && Buffer.wf (Config.TXT_MAX K) text

/-- R60: a request the port of an instance can carry. -/
def Request.wf (K : Nat) (q : Request) : Bool :=
  textWf K q.textLen q.text && dataWf K q.dataLen q.data

/-- The same for the operands an operation reads. -/
def Instr.wf (K : Nat) : Instr → Bool
  | .b32enc n data => dataWf K n data
  | .b32dec n text => textWf K n text
  | .hmac n data _ => dataWf K n data
  | .trunc n data _ => dataWf K n data
  | .tstep _ _ => true
  | .hotp n data _ _ => dataWf K n data
  | .totp n text _ _ _ => textWf K n text
  | .reserved7 => true

end Sys2Proof
end

