-- ==== Sys2Proof/Decode.lean ====
section
/-! DEFINITION. Selecting the operation of a request (spec/30_encoding.md R63 to R66), the packed form of a request as
bytes, and the encoder. The spec's request is a record of parallel fields and has no packed form; the packing is the
model's (DESIGN CHOICE, log entry 6): the fields of R60 in R60's order from bit 0 up, so that the op field stands at bits
2..0 as spec/opcode_table.json numbers it, and each payload as R45 lays it out. -/

namespace Sys2Proof

/-- R63: the operation a request names, with the operands that operation reads; every other field is ignored (R66). The
op field has 3 bits, so the last arm is op 7 alone (R65). -/
def decode (q : Request) : Instr :=
  match q.op.toNat with
  | 0 => .b32enc q.dataLen q.data
  | 1 => .b32dec q.textLen q.text
  | 2 => .hmac q.dataLen q.data q.ctr
  | 3 => .trunc q.dataLen q.data q.digits
  | 4 => .tstep q.now q.period
  | 5 => .hotp q.dataLen q.data q.ctr q.digits
  | 6 => .totp q.textLen q.text q.now q.period q.digits
  | _ => .reserved7

/-- R75: a request with every field 0: the value of a field an operation does not read. -/
def Request.blank : Request where
  op := 0
  digits := 0
  now := 0
  period := 0
  ctr := 0
  textLen := 0
  text := []
  dataLen := 0
  data := []

/-- R63, R75: the request that names this operation, its unread fields 0. -/
def Instr.toRequest : Instr → Request
  | .b32enc n d => { Request.blank with op := 0, dataLen := n, data := d }
  | .b32dec n t => { Request.blank with op := 1, textLen := n, text := t }
  | .hmac n d c => { Request.blank with op := 2, dataLen := n, data := d, ctr := c }
  | .trunc n d g => { Request.blank with op := 3, dataLen := n, data := d, digits := g }
  | .tstep w p => { Request.blank with op := 4, now := w, period := p }
  | .hotp n d c g => { Request.blank with op := 5, dataLen := n, data := d, ctr := c, digits := g }
  | .totp n t w p g => { Request.blank with op := 6, textLen := n, text := t, now := w, period := p, digits := g }
  | .reserved7 => { Request.blank with op := 7 }

/-- The number of bits of a packed request; 3512 at the default instance. -/
abbrev reqBits (K : Nat) : Nat :=
  3 + Config.DIGITS_W + Config.NOW_W + Config.PERIOD_W + Config.CTR_W + Config.TLEN_W K + 8 * Config.TXT_MAX K
    + Config.DLEN_W K + 8 * Config.KEY_MAX K

/-- The number of bytes of a packed request, the last one filled up with zero bits; 439 at the default instance. -/
abbrev reqBytes (K : Nat) : Nat := (reqBits K + 7) / 8

/-- The packed word of a request: op, digits, now, period, ctr, text_len, text, data_len, data from bit 0 up. A length
field has the width of the instance, so a length that does not fit it, which no port can carry (`Request.wf`), is cut to
that width here (DESIGN CHOICE, log entry 14). -/
def Request.toWord (K : Nat) (q : Request) : Nat :=
  q.op.toNat + 2 ^ 3 * (q.digits.toNat + 2 ^ Config.DIGITS_W * (q.now.toNat + 2 ^ Config.NOW_W * (q.period.toNat
    + 2 ^ Config.PERIOD_W * (q.ctr.toNat + 2 ^ Config.CTR_W * (q.textLen % 2 ^ Config.TLEN_W K + 2 ^ Config.TLEN_W K *
      (lanesToNat (memRead q.text 0 (Config.TXT_MAX K)) + 2 ^ (8 * Config.TXT_MAX K) *
        (q.dataLen % 2 ^ Config.DLEN_W K + 2 ^ Config.DLEN_W K *
          lanesToNat (memRead q.data 0 (Config.KEY_MAX K)))))))))

/-- The `w` bits of a packed word from bit `lo` up. -/
def wordField (word lo w : Nat) : BitVec w := BitVec.ofNat w (word >>> lo)

/-- The first bit of the text payload, of data_len and of the data payload in a packed request. -/
abbrev textAt (K : Nat) : Nat := 167 + Config.TLEN_W K
abbrev dataLenAt (K : Nat) : Nat := textAt K + 8 * Config.TXT_MAX K
abbrev dataAt (K : Nat) : Nat := dataLenAt K + Config.DLEN_W K

/-- The request a packed word stands for. -/
def Request.ofWord (K word : Nat) : Request where
  op := wordField word 0 3
  digits := wordField word 3 Config.DIGITS_W
  now := wordField word 7 Config.NOW_W
  period := wordField word 71 Config.PERIOD_W
  ctr := wordField word 103 Config.CTR_W
  textLen := (wordField word 167 (Config.TLEN_W K)).toNat
  text := Buffer.ofVector (Config.TXT_MAX K) 0 (word >>> textAt K)
  dataLen := (wordField word (dataLenAt K) (Config.DLEN_W K)).toNat
  data := Buffer.ofVector (Config.KEY_MAX K) 0 (word >>> dataAt K)

/-- Why a byte string is no packed request. No operation code is refused: op 7 is an operation that answers IllegalOp. -/
inductive DecodeError where
  /-- fewer bytes than one request has -/
  | tooShort
  /-- more bytes than one request has (R74: one length, one format), or a bit set above its last field -/
  | tooLong
deriving DecidableEq, Repr

/-- Decoding a packed word, total: a word with a bit above the request's is refused. -/
def decodeWord (K word : Nat) : Except DecodeError Instr :=
  if word >>> reqBits K = 0 then .ok (decode (Request.ofWord K word)) else .error .tooLong

/-- Decoding bytes, the lowest bits first; total on any bytes. -/
def decodeBytes (K : Nat) (bs : List Byte) : Except DecodeError Instr :=
  if bs.length < reqBytes K then .error .tooShort
  else if reqBytes K < bs.length then .error .tooLong
  else decodeWord K (lanesToNat bs)

/-- The packed word of an operation's request. -/
def encodeWord (K : Nat) (i : Instr) : Nat := i.toRequest.toWord K

/-- The same as bytes, the lowest bits first. -/
def encode (K : Nat) (i : Instr) : List Byte := natToLanes (reqBytes K) (encodeWord K i)

/-- The packed word of a table row: its low `nbits` bits, every bit above them 0. -/
def tableWord (nbits w : Nat) : Nat := w % 2 ^ nbits

/-- What the decoder of the default instance reads from an instruction whose bits are `w`, numbered as
spec/opcode_table.json numbers them. -/
def decodeTableWord (nbits w : Nat) : Option Instr :=
  match decodeWord Config.K (tableWord nbits w) with
  | .ok i => some i
  | .error _ => none

end Sys2Proof
end

