-- ==== Sys2Proof/Machine/State.lean ====
section
/-! DEFINITION. The architectural state of CORE (spec/10_state.md): the triple `(st, cmd, resp)` of R21, the port inputs
of the coming clock edges, and two counters of the model's own; the reset state (R34, R191). -/

namespace Sys2Proof.Machine

/-- R21: the phase. The fourth 2-bit code is never entered and the spec names no codes (log entry 9). -/
inductive Phase where
  | idle | busy | done
deriving DecidableEq, Repr

/-- R67: the error kinds. `entropyUnavailable` is the host's (R185); CORE never raises it. -/
inductive Err where
  | invalidEncoding | invalidSecret | invalidDigitCount | entropyUnavailable | invalidPeriod | illegalOp | badLength
deriving DecidableEq, Repr

/-- R26, R61: the response record. `none` is the spec's own "has no value" (R26, R173; U5: "better, absent from the
model's response type"). A lane of `rtext` or `rdata` at or above its length has no value either (R42). What the port
shows where there is no value is in Machine/Ports.lean. The length registers have TLEN_W and DLEN_W bits, which depend on the
instance (R7); no operation gives a length above the capacity (`Response.wf`), so every length fits. -/
structure Response where
  err      : BitVec 3
  rtextLen : Option Nat
  rtext    : Option Buffer
  rdataLen : Option Nat
  rdata    : Option Buffer
  rval     : Option (BitVec 31)
  rctr     : Option (BitVec Config.CTR_W)
deriving DecidableEq, Repr

/-- R22, R25, R62, R190: the inputs CORE samples at one rising edge of `clk`. -/
structure EdgeIn where
  rst       : Bool
  reqValid  : Bool
  req       : Request
  respReady : Bool
deriving DecidableEq, Repr

/-- The machine. `st`, `cmd`, `resp` are the spec's state (R21): `cmd` has a value only while BUSY, `resp` only while
DONE. The other three fields are the model's own: the host's moves, one record per coming clock edge (R20: "inputs of the
step relation"; log entry 1); the clock edges still to go before COMPLETE (R23; log entry 3); the number of edges so far,
which only indexes the free values of the ports (log entry 4). -/
structure State where
  st     : Phase
  cmd    : Option Request
  resp   : Option Response
  left   : Nat
  inputs : List EdgeIn
  edge   : Nat
deriving DecidableEq, Repr

/-- R34, R191: IDLE, `cmd` and `resp` without value. The model's own fields: nothing presented, counters 0
(DESIGN CHOICE, log entries 1, 3, 4). -/
def State.reset : State where
  st := .idle
  cmd := none
  resp := none
  left := 0
  inputs := []
  edge := 0

/-- Why the machine stops. The errors of spec/60_exceptions.md are no faults: they are responses, next states. -/
inductive Fault where
  /-- Raised by `step` alone, in a state with `st = BUSY` and no latched request, which R21 excludes and no run from
  reset reaches (log entry 8). Safe: the model stops where the spec has no state. -/
  | busyWithoutCommand
deriving DecidableEq, Repr

/-- Why an operation has no meaning. -/
inductive Refusal where
  /-- Raised by an arm of `exec` for an operation not modelled yet. No arm raises it: every operation has its meaning. Safe. -/
  | notModelled (mnemonic : String)
deriving DecidableEq, Repr

end Sys2Proof.Machine
end

