-- ==== Sys2Proof/Machine/Flags.lean ====
section
/-! DEFINITION. The status outputs and the error codes (spec/10_state.md R27, spec/30_encoding.md R67): all the flags CORE has. -/

namespace Sys2Proof.Machine

/-- R67: the code of an error in the `err` field; 0 is OK. -/
def Err.code : Err → BitVec 3
  | .invalidEncoding => 1
  | .invalidSecret => 2
  | .invalidDigitCount => 3
  | .entropyUnavailable => 4
  | .invalidPeriod => 5
  | .illegalOp => 6
  | .badLength => 7

/-- R67: the `err` field of a success. -/
def errOk : BitVec 3 := 0

/-- R22, R27: `req_ready = (st = IDLE)`. -/
def State.reqReady (s : State) : Bool := decide (s.st = .idle)

/-- R25, R27: `resp_valid = (st = DONE)`. -/
def State.respValid (s : State) : Bool := decide (s.st = .done)

end Sys2Proof.Machine
end

