-- ==== Sys2Proof/Machine/Ops.lean ====
section
/-! DEFINITION. The named operations on the state: the response records an operation can produce, the steps ACCEPT,
COMPLETE and RETIRE, RESET, the edges at which nothing happens, and reporting an error. -/

namespace Sys2Proof.Machine

/-! ### Response records -/

/-- A response in which only `err` has a value. -/
def Response.bare (code : BitVec 3) : Response where
  err := code
  rtextLen := none
  rtext := none
  rdataLen := none
  rdata := none
  rval := none
  rctr := none

/-- R173: the response of an error: its code, no other field with a value. -/
def Response.ofError (e : Err) : Response := Response.bare e.code

/-- `resp.err <- 0; resp.rtext_len <- len(t); MemWrite(resp.rtext, 0, len(t), t)` (R102, R138, R153). -/
def Response.ofText (t : List Byte) : Response :=
  { Response.bare errOk with rtextLen := some t.length, rtext := some (memWrite [] 0 t) }

/-- `resp.err <- 0; resp.rdata_len <- len(d); MemWrite(resp.rdata, 0, len(d), d)` (R97, R118). -/
def Response.ofData (d : List Byte) : Response :=
  { Response.bare errOk with rdataLen := some d.length, rdata := some (memWrite [] 0 d) }

/-- TRUNC's response: a text and `resp.rval <- P` (R136). -/
def Response.ofTrunc (p : Nat) (t : List Byte) : Response :=
  { Response.ofText t with rval := some (BitVec.ofNat 31 p) }

/-- TSTEP's response: `resp.err <- 0; resp.rctr <- c` (R151). -/
def Response.ofCounter (c : Nat) : Response :=
  { Response.bare errOk with rctr := some (BitVec.ofNat Config.CTR_W c) }

/-! ### One rising edge of the clock -/

/-- The inputs of an edge for which the host has put nothing down: `rst`, `req_valid` and `resp_ready` low (log entry 1). -/
def EdgeIn.quiet : EdgeIn where
  rst := false
  reqValid := false
  req := Request.blank
  respReady := false

/-- The inputs sampled at the coming edge. -/
def State.edgeIn (s : State) : EdgeIn := s.inputs.headD EdgeIn.quiet

/-- The clock edge itself: this edge's inputs are used up, the edge counter advances. -/
def State.tick (s : State) : State := { s with inputs := s.inputs.tail, edge := s.edge + 1 }

/-- R191, R192: RESET from any phase: IDLE, `cmd` and `resp` without value. -/
def State.doReset (s : State) : State := { s.tick with st := .idle, cmd := none, resp := none, left := 0 }

/-- R22: ACCEPT: the request port is latched, `st <- BUSY`; COMPLETE is LATENCY(cmd) edges away (R23). -/
def State.accept (K : Nat) (s : State) (q : Request) : State :=
  { s.tick with st := .busy, cmd := some q, resp := none, left := Config.latency K (q.toWord K) }

/-- An edge at which nothing happens (R22, R25: no request in IDLE, the host not ready in DONE): everything is held. -/
def State.hold (s : State) : State := s.tick

/-- R200: an edge in BUSY before the COMPLETE edge. -/
def State.wait (s : State) : State := { s.tick with left := s.left - 1 }

/-- R23: COMPLETE: `resp <- r`, `st <- DONE`; `cmd` has no value any more (R21). -/
def State.complete (s : State) (r : Response) : State :=
  { s.tick with st := .done, cmd := none, resp := some r, left := 0 }

/-- R25: RETIRE, the way back from every response, error or not (R173): `st <- IDLE`, `resp` loses its value. -/
def State.retire (s : State) : State := { s.tick with st := .idle, cmd := none, resp := none, left := 0 }

/-! ### Ending an operation -/

/-- R173, R175: `raise <Error>`: the one shared operation that reports an error. `resp.err` takes its code, no other
response field has a value, `st <- DONE`; nothing else changes. -/
def raiseError (e : Err) (s : State) : Host.Outcome State Fault Refusal :=
  .next (s.complete (Response.ofError e))

/-- R23, R64: COMPLETE with what the operation gave: its response, or the error it raised. -/
def finish (r : Except Err Response) (s : State) : Host.Outcome State Fault Refusal :=
  match r with
  | .ok resp => .next (s.complete resp)
  | .error e => raiseError e s

/-- R64, R173: the response record an operation's result stands for. -/
def respond : Except Err Response → Response
  | .ok resp => resp
  | .error e => Response.ofError e

/-- R22, R23: the state in which request `q` is latched and its COMPLETE step is at the coming edge; `rst` is low at that
edge. It stands for the ACCEPT of `q` and the edges of waiting (log entry 7). -/
def State.latched (s : State) (q : Request) : State :=
  { s with
    st := .busy
    cmd := some q
    resp := none
    left := 1
    inputs := match s.inputs with
      | [] => []
      | i :: t => { i with rst := false } :: t }

end Sys2Proof.Machine
end

