-- ==== Sys2Proof/Machine/Operands.lean ====
section
/-! DEFINITION. The operand forms (spec/30_encoding.md R66, R70 to R73): a payload with its length check, a digest, a key,
a digit count, a period, the counter block, at the instance of capacity `K` (R7). Each either gives the operand's value or raises the error the spec names. -/

namespace Sys2Proof.Machine

/-- R42, R66: the text payload, or BadLength when its length field is above the capacity. -/
def textOperand (K len : Nat) (text : Buffer) : Except Err (List Byte) :=
  if Config.TXT_MAX K < len then .error .badLength else .ok (memRead text 0 len)

/-- R42, R66: the byte payload, or BadLength when its length field is above the capacity. -/
def dataOperand (K len : Nat) (data : Buffer) : Except Err (List Byte) :=
  if Config.KEY_MAX K < len then .error .badLength else .ok (memRead data 0 len)

/-- R66, D26: TRUNC's digest, exactly 20 bytes, or BadLength. -/
def digestOperand (len : Nat) (data : Buffer) : Except Err (List Byte) :=
  if len ≠ Config.DIGEST_LEN then .error .badLength else .ok (memRead data 0 Config.DIGEST_LEN)

/-- R119: a key, or InvalidSecret when it is empty. -/
def checkKey (key : List Byte) : Except Err (List Byte) :=
  if key.length = 0 then .error .invalidSecret else .ok key

/-- R70, R130: a digit count 1 to 9, or InvalidDigitCount. -/
def checkDigits (digits : Nat) : Except Err Nat :=
  if digits < 1 ∨ 9 < digits then .error .invalidDigitCount else .ok digits

/-- R152: a period, or InvalidPeriod when it is 0. -/
def checkPeriod (period : Nat) : Except Err Nat :=
  if period = 0 then .error .invalidPeriod else .ok period

/-- R71: `CounterBlock(ctr) = bytes_be(ctr, 8)`. -/
def counterBlock (ctr : Nat) : List Byte := bytesBE ctr Config.CTR_BLOCK_LEN

end Sys2Proof.Machine
end

