-- ==== Sys2Proof/Machine/Base32.lean ====
section
/-! DEFINITION. base32_decoder and base32_encoder (spec/40_base32.md): B32Decode, B32Encode, and the operations B32DEC and
B32ENC. -/

namespace Sys2Proof.Machine

/-! ### The decoder -/

/-- R69: the padding character `=`. -/
def padChar : Byte := 0x3D

/-- R90: `Upper(c)`: lower-case ASCII letters fold, nothing else changes. -/
def upper (c : Byte) : Byte :=
  if 0x61 ≤ c.toNat ∧ c.toNat ≤ 0x7A then c - 0x20 else c

/-- R91: `StripPad(t)`: `t` without its longest suffix of `=`. -/
def stripPad (t : List Byte) : List Byte :=
  (t.reverse.dropWhile fun c => decide (c = padChar)).reverse

/-- R92: `B32Index(c)`: the 5-bit value of a character of the alphabet, or none. -/
def b32Index (c : Byte) : Option Nat :=
  if 0x41 ≤ c.toNat ∧ c.toNat ≤ 0x5A then some (c.toNat - 0x41)
  else if 0x32 ≤ c.toNat ∧ c.toNat ≤ 0x37 then some (c.toNat - 0x32 + 26)
  else none

/-- R94: the loop of B32Decode over the characters' 5-bit values, with the rolling buffer `acc` of `nbits` bits; the
bytes it puts out. The bits left at the end are dropped. -/
def decodeLoop : List Nat → Nat → Nat → List Byte
  | [], _, _ => []
  | v :: vs, acc, nbits =>
    let acc' := (acc <<< 5) ||| v
    let nbits' := nbits + 5
    if 8 ≤ nbits' then
      BitVec.ofNat 8 ((acc' >>> (nbits' - 8)) &&& 0xFF)
        :: decodeLoop vs (acc' &&& ((1 <<< (nbits' - 8)) - 1)) (nbits' - 8)
    else decodeLoop vs acc' nbits'

/-- R90, R91: the characters validation looks at: folded and stripped. -/
def foldStrip (t : List Byte) : List Byte := stripPad (t.map upper)

/-- R94: `B32Decode(t)`. -/
def b32Decode (t : List Byte) : Except Err (List Byte) :=
  let s := foldStrip t
  if s.any (fun c => (b32Index c).isNone) then .error .invalidEncoding
  else .ok (decodeLoop (s.filterMap b32Index) 0 0)

/-! ### The encoder -/

/-- R68: the alphabet `A-Z2-7` by index. -/
def b32Alphabet : List Byte :=
  [0x41, 0x42, 0x43, 0x44, 0x45, 0x46, 0x47, 0x48, 0x49, 0x4A, 0x4B, 0x4C, 0x4D, 0x4E, 0x4F, 0x50]
    ++ [0x51, 0x52, 0x53, 0x54, 0x55, 0x56, 0x57, 0x58, 0x59, 0x5A, 0x32, 0x33, 0x34, 0x35, 0x36, 0x37]

/-- R68: `ALPHA[i]`. -/
def b32Char (i : Nat) : Byte := b32Alphabet.getD i 0

/-- R99: the inner loop `while nbits >= 5`: the characters it puts out, and `acc` and `nbits` after it. The first
argument bounds the number of turns; `nbits` is always enough. -/
def encodeDrain : Nat → Nat → Nat → List Byte × Nat × Nat
  | 0, acc, nbits => ([], acc, nbits)
  | fuel + 1, acc, nbits =>
    if 5 ≤ nbits then
      let rest := encodeDrain fuel (acc &&& ((1 <<< (nbits - 5)) - 1)) (nbits - 5)
      (b32Char ((acc >>> (nbits - 5)) &&& 0x1F) :: rest.1, rest.2)
    else ([], acc, nbits)

/-- R99: the loop over the bytes and the final group, before padding. -/
def encodeLoop : List Byte → Nat → Nat → List Byte
  | [], acc, nbits => if 0 < nbits then [b32Char ((acc <<< (5 - nbits)) &&& 0x1F)] else []
  | x :: xs, acc, nbits =>
    let d := encodeDrain (nbits + 8) ((acc <<< 8) ||| x.toNat) (nbits + 8)
    d.1 ++ encodeLoop xs d.2.1 d.2.2

/-- R99: the data characters of an encoding, before padding. -/
def b32Chars (b : List Byte) : List Byte := encodeLoop b 0 0

/-- R99: `=` is appended until the length is a multiple of 8. -/
def padTo8 (out : List Byte) : List Byte :=
  out ++ List.replicate ((8 - out.length % 8) % 8) padChar

/-- R99: `B32Encode(b)`. -/
def b32Encode (b : List Byte) : List Byte := padTo8 (b32Chars b)

/-! ### The operations -/

/-- R102: what B32ENC computes from its operands. -/
def opB32enc (K len : Nat) (data : Buffer) : Except Err Response :=
  match dataOperand K len data with
  | .error e => .error e
  | .ok b => .ok (Response.ofText (b32Encode b))

/-- R97: what B32DEC computes from its operands. -/
def opB32dec (K len : Nat) (text : Buffer) : Except Err Response :=
  match textOperand K len text with
  | .error e => .error e
  | .ok t =>
    match b32Decode t with
    | .error e => .error e
    | .ok r => .ok (Response.ofData r)

/-- R102: B32ENC. -/
def execB32enc (len : Nat) (data : Buffer) (s : State) : Host.Outcome State Fault Refusal :=
  finish (opB32enc Config.K len data) s

/-- R97: B32DEC. -/
def execB32dec (len : Nat) (text : Buffer) (s : State) : Host.Outcome State Fault Refusal :=
  finish (opB32dec Config.K len text) s

end Sys2Proof.Machine
end

