-- ==== Sys2Proof/Machine/Sha1.lean ====
section
/-! DEFINITION. SHA-1 (spec/41_hmac_sha1.md R110 to R115), which the spec supplies from general knowledge (log entry 10). -/

namespace Sys2Proof.Machine

/-- R113: the five chaining values, or the five working variables. -/
structure Chain where
  a : Word32
  b : Word32
  c : Word32
  d : Word32
  e : Word32
deriving DecidableEq, Repr

/-- R110: the initial chaining value `(H0, H1, H2, H3, H4)`. -/
def sha1Init : Chain := ⟨0x67452301, 0xEFCDAB89, 0x98BADCFE, 0x10325476, 0xC3D2E1F0⟩

/-- R110: the round constant `K(t)`. -/
def sha1K (t : Nat) : Word32 :=
  if t ≤ 19 then 0x5A827999 else if t ≤ 39 then 0x6ED9EBA1 else if t ≤ 59 then 0x8F1BBCDC else 0xCA62C1D6

/-- R110: the round function `F(t, b, c, d)`. -/
def sha1F (t : Nat) (b c d : Word32) : Word32 :=
  if t ≤ 19 then (b &&& c) ||| (~~~b &&& d)
  else if t ≤ 39 then b ^^^ c ^^^ d
  else if t ≤ 59 then (b &&& c) ||| (b &&& d) ||| (c &&& d)
  else b ^^^ c ^^^ d

/-- R111: `Sha1Pad(m)`, with `z = (55 - L) mod 64` zero bytes. -/
def sha1Pad (m : List Byte) : List Byte :=
  m ++ [0x80] ++ List.replicate ((55 + 64 - m.length % 64) % 64) 0x00 ++ bytesBE (8 * m.length) 8

/-- R112: the first 16 words of the schedule, last first: `W[15], ..., W[0]`. -/
def schedule16 (blk : List Byte) : List Word32 :=
  ((List.range 16).map fun t => BitVec.ofNat 32 (be32 (blk.drop (4 * t)))).reverse

/-- R112: `n` more words, each from the words before it; the list has the last word first. -/
def extendSchedule : Nat → List Word32 → List Word32
  | 0, w => w
  | n + 1, w =>
    extendSchedule n (rotl32 (w.getD 2 0 ^^^ w.getD 7 0 ^^^ w.getD 13 0 ^^^ w.getD 15 0) 1 :: w)

/-- R112: the message schedule `W[0], ..., W[79]` of a 64-byte block. -/
def schedule (blk : List Byte) : List Word32 := (extendSchedule 64 (schedule16 blk)).reverse

/-- R113: one round. -/
def sha1Round (t : Nat) (w : Word32) (h : Chain) : Chain where
  a := rotl32 h.a 5 + sha1F t h.b h.c h.d + h.e + sha1K t + w
  b := h.a
  c := rotl32 h.b 30
  d := h.c
  e := h.d

/-- R113: the rounds from `t` on, one per word. -/
def sha1Rounds : Nat → List Word32 → Chain → Chain
  | _, [], h => h
  | t, w :: ws, h => sha1Rounds (t + 1) ws (sha1Round t w h)

/-- R113: `Sha1Compress(h, blk)`. -/
def sha1Compress (h : Chain) (blk : List Byte) : Chain :=
  let r := sha1Rounds 0 (schedule blk) h
  ⟨h.a + r.a, h.b + r.b, h.c + r.c, h.d + r.d, h.e + r.e⟩

/-- R114: the compressions of `n` blocks of 64 bytes, in order. -/
def sha1Blocks : Nat → List Byte → Chain → Chain
  | 0, _, h => h
  | n + 1, p, h => sha1Blocks n (p.drop 64) (sha1Compress h (p.take 64))

/-- R115: `Sha1Digest(h)`. -/
def sha1Digest (h : Chain) : List Byte :=
  bytesBE h.a.toNat 4 ++ bytesBE h.b.toNat 4 ++ bytesBE h.c.toNat 4 ++ bytesBE h.d.toNat 4 ++ bytesBE h.e.toNat 4

/-- R114: `Sha1(m)`. -/
def sha1 (m : List Byte) : List Byte :=
  let p := sha1Pad m
  sha1Digest (sha1Blocks (p.length / 64) p sha1Init)

end Sys2Proof.Machine
end

