-- ==== Sys2Proof/Machine/Hmac.lean ====
section
/-! DEFINITION. hmac_sha1_core (spec/41_hmac_sha1.md R116 to R120): HmacSha1 and the operation HMAC. -/

namespace Sys2Proof.Machine

/-- R116, R120: the key as one 64-byte block: hashed first when longer than 64 bytes, then filled up with zero bytes. -/
def hmacKeyBlock (key : List Byte) : List Byte :=
  let k0 := if 64 < key.length then sha1 key else key
  k0 ++ List.replicate (64 - k0.length) 0x00

/-- R116: `HmacSha1(key, msg)`. -/
def hmacSha1 (key msg : List Byte) : List Byte :=
  let k0 := hmacKeyBlock key
  let ikey := k0.map fun x => x ^^^ 0x36
  let okey := k0.map fun x => x ^^^ 0x5C
  sha1 (okey ++ sha1 (ikey ++ msg))

/-- R118: what HMAC computes from its operands. -/
def opHmac (K len : Nat) (data : Buffer) (ctr : BitVec Config.CTR_W) : Except Err Response :=
  match dataOperand K len data with
  | .error e => .error e
  | .ok b =>
    match checkKey b with
    | .error e => .error e
    | .ok key => .ok (Response.ofData (hmacSha1 key (counterBlock ctr.toNat)))

/-- R118: HMAC. -/
def execHmac (len : Nat) (data : Buffer) (ctr : BitVec Config.CTR_W) (s : State) :
    Host.Outcome State Fault Refusal :=
  finish (opHmac Config.K len data ctr) s

end Sys2Proof.Machine
end

