-- ==== Sys2Proof/Machine/Hotp.lean ====
section
/-! DEFINITION. hotp_truncator and the composite HOTP (spec/42_hotp_truncator.md): Truncate and the operations TRUNC and
HOTP. -/

namespace Sys2Proof.Machine

/-- R131: `offset = d[19] & 0x0F`. -/
def truncOffset (d : List Byte) : Nat := (d.getD 19 0).toNat &&& 0x0F

/-- R132: `P = be32(d[offset .. offset+3]) & 0x7FFFFFFF`. -/
def truncValue (d : List Byte) : Nat := be32 (d.drop (truncOffset d)) &&& 0x7FFFFFFF

/-- R134: `Dec(v, n)`: `n` characters, character `i` being `0x30 + ((v div 10^(n-1-i)) mod 10)`. -/
def decText (v n : Nat) : List Byte :=
  (List.range n).map fun i => BitVec.ofNat 8 (0x30 + v / 10 ^ (n - 1 - i) % 10)

/-- R133, R134: the OTP text of a truncated value: reduced modulo `10^digits` and rendered. -/
def otpText (p digits : Nat) : List Byte := decText (p % 10 ^ digits) digits

/-- R135: `Truncate(d, digits)`. -/
def truncate (d : List Byte) (digits : Nat) : Except Err (Nat × List Byte) :=
  match checkDigits digits with
  | .error e => .error e
  | .ok n => .ok (truncValue d, otpText (truncValue d) n)

/-- R138, R153: the part HOTP and TOTP share, D0's HotpEngine.compute: the key check, the digit check, the hash, the
truncation; the OTP text. -/
def hotpCompute (bytes : List Byte) (counter digits : Nat) : Except Err (List Byte) :=
  match checkKey bytes with
  | .error e => .error e
  | .ok key =>
    match checkDigits digits with
    | .error e => .error e
    | .ok n =>
      match truncate (hmacSha1 key (counterBlock counter)) n with
      | .error e => .error e
      | .ok ps => .ok ps.2

/-- R136: what TRUNC computes from its operands. -/
def opTrunc (len : Nat) (data : Buffer) (digits : BitVec Config.DIGITS_W) : Except Err Response :=
  match digestOperand len data with
  | .error e => .error e
  | .ok d =>
    match truncate d digits.toNat with
    | .error e => .error e
    | .ok ps => .ok (Response.ofTrunc ps.1 ps.2)

/-- R138: what HOTP computes from its operands. -/
def opHotp (K len : Nat) (data : Buffer) (ctr : BitVec Config.CTR_W) (digits : BitVec Config.DIGITS_W) :
    Except Err Response :=
  match dataOperand K len data with
  | .error e => .error e
  | .ok b =>
    match hotpCompute b ctr.toNat digits.toNat with
    | .error e => .error e
    | .ok t => .ok (Response.ofText t)

/-- R136: TRUNC. -/
def execTrunc (len : Nat) (data : Buffer) (digits : BitVec Config.DIGITS_W) (s : State) :
    Host.Outcome State Fault Refusal :=
  finish (opTrunc len data digits) s

/-- R138: HOTP. -/
def execHotp (len : Nat) (data : Buffer) (ctr : BitVec Config.CTR_W) (digits : BitVec Config.DIGITS_W)
    (s : State) : Host.Outcome State Fault Refusal :=
  finish (opHotp Config.K len data ctr digits) s

end Sys2Proof.Machine
end

