-- ==== Sys2Proof/Machine/Reserved.lean ====
section
/-! DEFINITION. The reserved operation code (spec/30_encoding.md R65): accepted like any other, answered with IllegalOp. -/

namespace Sys2Proof.Machine

/-- R65: `op = 7` completes with `err = 6`; it reads no operand and writes no result. -/
def execReserved7 (s : State) : Host.Outcome State Fault Refusal :=
  raiseError .illegalOp s

end Sys2Proof.Machine
end

