-- ==== Sys2Proof/Machine/Totp.lean ====
section
/-! DEFINITION. totp_time_counter and the composite TOTP (spec/43_totp.md R150 to R154): the operations TSTEP and TOTP. -/

namespace Sys2Proof.Machine

/-- R150: `TStep(now, period) = floor(now / period)`; InvalidPeriod when `period = 0` (R152). -/
def tStep (now period : Nat) : Except Err Nat :=
  match checkPeriod period with
  | .error e => .error e
  | .ok p => .ok (now / p)

/-- R153, R154: the secret bytes of a text; a text that does not decode is InvalidSecret. -/
def secretOf (t : List Byte) : Except Err (List Byte) :=
  match b32Decode t with
  | .error _ => .error .invalidSecret
  | .ok key => .ok key

/-- R151: what TSTEP computes from its operands. -/
def opTstep (now : BitVec Config.NOW_W) (period : BitVec Config.PERIOD_W) : Except Err Response :=
  match tStep now.toNat period.toNat with
  | .error e => .error e
  | .ok c => .ok (Response.ofCounter c)

/-- R153: what TOTP computes from its operands, its checks in the order written there. -/
def opTotp (K len : Nat) (text : Buffer) (now : BitVec Config.NOW_W) (period : BitVec Config.PERIOD_W)
    (digits : BitVec Config.DIGITS_W) : Except Err Response :=
  match textOperand K len text with
  | .error e => .error e
  | .ok t =>
    match secretOf t with
    | .error e => .error e
    | .ok key =>
      match tStep now.toNat period.toNat with
      | .error e => .error e
      | .ok c =>
        match hotpCompute key c digits.toNat with
        | .error e => .error e
        | .ok s => .ok (Response.ofText s)

/-- R151: TSTEP. -/
def execTstep (now : BitVec Config.NOW_W) (period : BitVec Config.PERIOD_W) (s : State) :
    Host.Outcome State Fault Refusal :=
  finish (opTstep now period) s

/-- R153: TOTP. -/
def execTotp (len : Nat) (text : Buffer) (now : BitVec Config.NOW_W) (period : BitVec Config.PERIOD_W)
    (digits : BitVec Config.DIGITS_W) (s : State) : Host.Outcome State Fault Refusal :=
  finish (opTotp Config.K len text now period digits) s

end Sys2Proof.Machine
end

