-- ==== Sys2Proof/Machine/Dispatch.lean ====
section
/-! DEFINITION. The COMPLETE step of the latched request (spec/10_state.md R23), one arm per operation (spec/30_encoding.md
R63, R64). -/

namespace Sys2Proof.Machine

def exec (i : Instr) (s : State) : Host.Outcome State Fault Refusal :=
  match i with
  | .b32enc dataLen data => Sys2Proof.Machine.execB32enc dataLen data s
  | .b32dec textLen text => Sys2Proof.Machine.execB32dec textLen text s
  | .hmac dataLen data ctr => Sys2Proof.Machine.execHmac dataLen data ctr s
  | .trunc dataLen data digits => Sys2Proof.Machine.execTrunc dataLen data digits s
  | .tstep now period => Sys2Proof.Machine.execTstep now period s
  | .hotp dataLen data ctr digits => Sys2Proof.Machine.execHotp dataLen data ctr digits s
  | .totp textLen text now period digits => Sys2Proof.Machine.execTotp textLen text now period digits s
  | .reserved7 => Sys2Proof.Machine.execReserved7 s

end Sys2Proof.Machine
end

