-- ==== Sys2Proof/Machine/Edge.lean ====
section
/-! DEFINITION. What happens at one rising edge of `clk` (spec/70_reset_and_hazards.md R190): whether it is a COMPLETE
edge, and everything that is not COMPLETE. -/

namespace Sys2Proof.Machine

/-- R23, R200: the request whose COMPLETE step is at the coming edge: `rst` is low, `st = BUSY`, and LATENCY edges have
passed since ACCEPT. -/
def State.completing (s : State) : Option Request :=
  match s.edgeIn.rst, s.st with
  | false, .busy => if 1 < s.left then none else s.cmd
  | _, _ => none

/-- An edge without COMPLETE: RESET when `rst` is high, from any phase (R191, R192); else, in IDLE, ACCEPT of a presented
request (R22); in BUSY, waiting (R200); in DONE, RETIRE when the host is ready (R25). Otherwise everything is held. The
last BUSY case is one without a latched request, no state of the spec (log entry 8). -/
def State.otherEdge (K : Nat) (s : State) : Host.Outcome State Fault Refusal :=
  match s.edgeIn.rst, s.st with
  | true, _ => .next s.doReset
  | false, .idle => if s.edgeIn.reqValid then .next (s.accept K s.edgeIn.req) else .next s.hold
  | false, .busy => if 1 < s.left then .next s.wait else .fault .busyWithoutCommand
  | false, .done => if s.edgeIn.respReady then .next s.retire else .next s.hold

/-- R190: one rising edge at the instance of capacity `K`, given what runs an operation (R23): at a COMPLETE edge the latched
request's operation runs, any other edge is `State.otherEdge`. -/
def State.edgeStep (K : Nat) (run : Instr → State → Host.Outcome State Fault Refusal) (s : State) :
    Host.Outcome State Fault Refusal :=
  match s.completing with
  | some q => run (decode q) s
  | none => s.otherEdge K

end Sys2Proof.Machine
end

