-- ==== Sys2Proof/Machine/Step.lean ====
section
/-! DEFINITION. One step: one rising edge of `clk` (spec/70_reset_and_hazards.md R190). -/

namespace Sys2Proof.Machine

/-- R190: one edge at the default instance, its operations run by `exec`. -/
def step (s : State) : Host.Outcome State Fault Refusal :=
  s.edgeStep Config.K exec

/-- `s` with the request whose packed word is the low `nbits` bits of `w` latched, its COMPLETE step at the coming edge: the
very next step runs it (log entry 7). -/
def State.withFetchWord (s : State) (nbits w : Nat) : State :=
  s.latched (Request.ofWord Config.K (tableWord nbits w))

end Sys2Proof.Machine
end

