-- ==== Sys2Proof/Machine/Exec.lean ====
section
/-! DEFINITION. The pure function `Exec(cmd)` of spec/30_encoding.md R64: the response to a request. `exec`
(Machine/Dispatch.lean) is the COMPLETE step that stores it. -/

namespace Sys2Proof.Machine

/-- R64: what an operation gives at the instance of capacity `K`: a response with `err = 0`, or the error it raises. -/
def opResult (K : Nat) : Instr → Except Err Response
  | .b32enc n d => opB32enc K n d
  | .b32dec n t => opB32dec K n t
  | .hmac n d c => opHmac K n d c
  | .trunc n d g => opTrunc n d g
  | .tstep w p => opTstep w p
  | .hotp n d c g => opHotp K n d c g
  | .totp n t w p g => opTotp K n t w p g
  | .reserved7 => .error .illegalOp

/-- R32, R64: `Exec(q)`, the response to request `q`, a function of `q` alone. -/
def execRequest (K : Nat) (q : Request) : Response := respond (opResult K (decode q))

end Sys2Proof.Machine
end

