-- ==== Sys2Proof/Machine/Ports.lean ====
section
/-! DEFINITION. The output ports (spec/10_state.md R26, R27; spec/20_memory.md R42, R45, R47): what the host reads. A register
or lane without value shows any value: a free value of Config, fresh at every clock edge (log entry 4). Reading changes
nothing (R47), so each port is a function of the state. -/

namespace Sys2Proof.Machine

/-- R26, R173: what register `r` shows, given its value if it has one. -/
def State.portValue {w : Nat} (s : State) (r : RespReg) (v : Option (BitVec w)) : BitVec w :=
  v.getD (Config.freePort w r 0 s.edge)

/-- R42: the byte in lane `i` of a payload result of length `len`, if that lane has a value. -/
def laneValue (len : Nat) (buf : Option Buffer) (i : Nat) : Option Byte :=
  match buf with
  | some b => if i < len then some (Buffer.read b i) else none
  | none => none

/-- The value of a length register, 0 lanes where it has none. -/
def lenValue (len : Option Nat) : Nat := len.getD 0

/-- R26: the registers of the pending response, each if it has a value. -/
def State.respErr (s : State) : Option (BitVec 3) := s.resp.map (·.err)
def State.respRtextLen (s : State) : Option Nat := s.resp.bind (·.rtextLen)
def State.respRdataLen (s : State) : Option Nat := s.resp.bind (·.rdataLen)
def State.respRval (s : State) : Option (BitVec 31) := s.resp.bind (·.rval)
def State.respRctr (s : State) : Option (BitVec Config.CTR_W) := s.resp.bind (·.rctr)
def State.respRtextLane (s : State) (i : Nat) : Option Byte :=
  laneValue (lenValue s.respRtextLen) (s.resp.bind (·.rtext)) i
def State.respRdataLane (s : State) (i : Nat) : Option Byte :=
  laneValue (lenValue s.respRdataLen) (s.resp.bind (·.rdata)) i

/-- R61: the output port of the instance of capacity `K` as the host sees it after a clock edge, each register with its
width (R7, R26). -/
structure PortOut (K : Nat) where
  reqReady  : Bool
  respValid : Bool
  err       : BitVec 3
  rtextLen  : BitVec (Config.TLEN_W K)
  rtext     : List Byte
  rdataLen  : BitVec (Config.DLEN_W K)
  rdata     : List Byte
  rval      : BitVec 31
  rctr      : BitVec Config.CTR_W
deriving DecidableEq, Repr

/-- R26, R27, R40, R42: all lanes of a payload buffer are presented in parallel; what has no value shows a free value. -/
def State.ports (K : Nat) (s : State) : PortOut K where
  reqReady := s.reqReady
  respValid := s.respValid
  err := s.portValue .err s.respErr
  rtextLen := s.portValue .rtextLen (s.respRtextLen.map (BitVec.ofNat _))
  rtext := (List.range (Config.TXT_MAX K)).map fun i =>
    (s.respRtextLane i).getD (Config.freePort 8 .rtext i s.edge)
  rdataLen := s.portValue .rdataLen (s.respRdataLen.map (BitVec.ofNat _))
  rdata := (List.range (Config.KEY_MAX K)).map fun i =>
    (s.respRdataLane i).getD (Config.freePort 8 .rdata i s.edge)
  rval := s.portValue .rval s.respRval
  rctr := s.portValue .rctr s.respRctr

/-- R45: a payload port as one vector, lane `i` at bits `8*i+7 : 8*i`. -/
def PortOut.rtextVector {K : Nat} (o : PortOut K) : Nat := lanesToNat o.rtext
def PortOut.rdataVector {K : Nat} (o : PortOut K) : Nat := lanesToNat o.rdata

/-- R41, R42: the text result as a byte sequence, `MemRead(resp.rtext, 0, rtext_len)`, if the response has one. -/
def Response.textValue (r : Response) : Option (List Byte) :=
  match r.rtext, r.rtextLen with
  | some b, some n => some (memRead b 0 n)
  | _, _ => none

/-- R41, R42: the byte result as a byte sequence, if the response has one. -/
def Response.dataValue (r : Response) : Option (List Byte) :=
  match r.rdata, r.rdataLen with
  | some b, some n => some (memRead b 0 n)
  | _, _ => none

end Sys2Proof.Machine
end

