-- ==== Sys2Proof/Machine/Client.lean ====
section
/-! DEFINITION. The host's side of the requests: the requests of a byte sequence or text (spec/30_encoding.md R75), the
pseudo-operations and defaults (R76, spec/43_totp.md R156, R157), and the sequences of unit operations that do the work of HOTP and
TOTP (R139, R159). None of it is CORE's: a request is all CORE sees. -/

namespace Sys2Proof.Machine

/-! ### Requests of a byte sequence or a text

R75, R76: the length field is implied by the operand. DESIGN CHOICE (log entry 14): the spec does not say what a host does with
an operand whose length does not fit the length field (more than 255 bytes or 511 characters at `K = 32`). Here the length is
the operand's own length, never a smaller one: such a request is ill-formed (`Instr.wf`), no port can carry it, and wherever the
model is asked for its response all the same the answer is BadLength, as for every length above the capacity. -/

/-- `B32ENC bytes`; an operand longer than the length field can hold: log entry 14, as for the ones below. -/
def reqB32enc (b : List Byte) : Instr := .b32enc b.length (Buffer.ofBytes b)
def reqB32dec (t : List Byte) : Instr := .b32dec t.length (Buffer.ofBytes t)
def reqHmac (b : List Byte) (ctr : BitVec Config.CTR_W) : Instr := .hmac b.length (Buffer.ofBytes b) ctr
def reqTrunc (b : List Byte) (digits : BitVec Config.DIGITS_W) : Instr := .trunc b.length (Buffer.ofBytes b) digits
def reqTstep (now : BitVec Config.NOW_W) (period : BitVec Config.PERIOD_W) : Instr := .tstep now period
def reqHotp (b : List Byte) (ctr : BitVec Config.CTR_W) (digits : BitVec Config.DIGITS_W) : Instr :=
  .hotp b.length (Buffer.ofBytes b) ctr digits
def reqTotp (t : List Byte) (now : BitVec Config.NOW_W) (period : BitVec Config.PERIOD_W)
    (digits : BitVec Config.DIGITS_W) : Instr :=
  .totp t.length (Buffer.ofBytes t) now period digits

/-! ### Responses -/

/-- The response the instance of capacity `K` gives to an operation (R64). -/
def responseTo (K : Nat) (i : Instr) : Response := respond (opResult K i)

/-- R198: the host tests `err` first; the text of a response, or its error code. -/
def textResult (r : Response) : Except (BitVec 3) (List Byte) :=
  if r.err ≠ errOk then .error r.err
  else match r.textValue with
    | some t => .ok t
    | none => .ok []

/-! ### Pseudo-operations -/

/-- R76: `decodeSecret`, `encodeSecret`, `computeTotp`, `HotpEngine.compute`. -/
def decodeSecret (t : List Byte) : Instr := reqB32dec t
def encodeSecret (b : List Byte) : Instr := reqB32enc b
def computeTotp (t : List Byte) (now : BitVec Config.NOW_W) (period : BitVec Config.PERIOD_W)
    (digits : BitVec Config.DIGITS_W) : Instr := reqTotp t now period digits
def hotpEngineCompute (b : List Byte) (ctr : BitVec Config.CTR_W) (digits : BitVec Config.DIGITS_W) : Instr :=
  reqHotp b ctr digits

/-- R156 (1): `byteLength` bytes drawn from a source, which is a free sequence of bytes, a draw under no law. -/
def drawBytes (source : Nat → Byte) (byteLength : Nat) : List Byte := (List.range byteLength).map source

/-- R156, R185: the request GENSECRET issues: B32ENC of `byteLength` bytes drawn from the host's secure source. Without such a
source (`none`) the host itself reports EntropyUnavailable and issues no request. -/
def genSecretRequest (source : Option (Nat → Byte)) (byteLength : Nat) : Except Err Instr :=
  match source with
  | none => .error .entropyUnavailable
  | some f => .ok (reqB32enc (drawBytes f byteLength))

/-- R156, R185: GENSECRET, `generateSecret(length) -> text | Error`: the `rtext` of the response to that request, or the code of
the error. DESIGN CHOICE (log entry 15): the spec only says that `byteLength` must be from 1 to KEY_MAX; here a host that has a
source draws and asks all the same, and gets what B32ENC answers: the empty text for 0 bytes, BadLength above KEY_MAX. -/
def genSecret (K : Nat) (source : Option (Nat → Byte)) (byteLength : Nat) : Except (BitVec 3) (List Byte) :=
  match genSecretRequest source byteLength with
  | .error e => .error e.code
  | .ok i => textResult (responseTo K i)

/-! ### Defaults

R157: D0's defaults, placed in the request by the host when its own caller gives no value; CORE has none. -/

def defaultPeriod : BitVec Config.PERIOD_W := 30
def defaultDigits : BitVec Config.DIGITS_W := 6
def defaultSecretLen : Nat := 20

/-- R153, R157: the TOTP request of a caller that may leave the period or the digit count out. -/
def hostTotp (t : List Byte) (now : BitVec Config.NOW_W) (period : Option (BitVec Config.PERIOD_W))
    (digits : Option (BitVec Config.DIGITS_W)) : Instr :=
  reqTotp t now (period.getD defaultPeriod) (digits.getD defaultDigits)

/-- R76: `TOTP text, now`. -/
def totpDefault (t : List Byte) (now : BitVec Config.NOW_W) : Instr := hostTotp t now none none

/-- R156, R157: GENSECRET of a caller that may leave the length out. -/
def hostGenSecret (K : Nat) (source : Option (Nat → Byte)) (byteLength : Option Nat) : Except (BitVec 3) (List Byte) :=
  genSecret K source (byteLength.getD defaultSecretLen)

/-! ### HOTP and TOTP by unit operations -/

/-- TRUNC of the digest a response carries. -/
def truncOfResponse (K : Nat) (r : Response) (digits : BitVec Config.DIGITS_W) : Except (BitVec 3) (List Byte) :=
  if r.err ≠ errOk then .error r.err
  else match r.rdataLen, r.rdata with
    | some n, some d => textResult (responseTo K (.trunc n d digits))
    | _, _ => .ok []

/-- R139: HOTP by unit operations: HMAC, then TRUNC of the digest, stopping at the first error. -/
def hotpByUnits (K len : Nat) (data : Buffer) (ctr : BitVec Config.CTR_W) (digits : BitVec Config.DIGITS_W) :
    Except (BitVec 3) (List Byte) :=
  truncOfResponse K (responseTo K (.hmac len data ctr)) digits

/-- R159: the mapping of a B32DEC error: InvalidEncoding is reported as InvalidSecret. -/
def mapDecodeError (code : BitVec 3) : BitVec 3 :=
  if code = Err.invalidEncoding.code then Err.invalidSecret.code else code

/-- R159: TOTP by unit operations: B32DEC, TSTEP, HMAC with the decoded bytes and the counter, TRUNC with the digest,
stopping at the first error. The host carries `rdata` and `rctr` from response to request. -/
def totpByUnits (K len : Nat) (text : Buffer) (now : BitVec Config.NOW_W) (period : BitVec Config.PERIOD_W)
    (digits : BitVec Config.DIGITS_W) : Except (BitVec 3) (List Byte) :=
  let r1 := responseTo K (.b32dec len text)
  if r1.err ≠ errOk then .error (mapDecodeError r1.err)
  else
    let r2 := responseTo K (.tstep now period)
    if r2.err ≠ errOk then .error r2.err
    else match r1.rdataLen, r1.rdata, r2.rctr with
      | some n, some d, some c => hotpByUnits K n d c digits
      | _, _, _ => .ok []

end Sys2Proof.Machine
end

