-- ==== Sys2Proof/Machine/Instance.lean ====
section
/-! DEFINITION. CORE at every capacity `K` (spec/00_scope.md R7: a parameter the model takes as an argument, `K >= 4`): its
COMPLETE step, its clock edge and its machine. `exec`, `step` and `core` are these at `Config.K` (`exec_eq_execFor` and
`step_eq_stepFor` in Laws/Step.lean). -/

namespace Sys2Proof.Machine

/-- R23, R64: the COMPLETE step of operation `i`. -/
def execFor (K : Nat) (i : Instr) (s : State) : Host.Outcome State Fault Refusal :=
  finish (opResult K i) s

/-- R190: one rising edge of `clk`. -/
def stepFor (K : Nat) (s : State) : Host.Outcome State Fault Refusal :=
  s.edgeStep K (execFor K)

/-- The machine: the same states and the same reset state at every `K` (R34). -/
def coreFor (K : Nat) : Host.Core where
  State := State
  Fault := Fault
  Refusal := Refusal
  step := stepFor K
  reset := State.reset

end Sys2Proof.Machine
end

