-- ==== Sys2Proof/Safety.lean ====
section
/-! DEFINITION. What the statements call a good state, a good response and a good host: the invariant that every step keeps, the
canonical form of all payload buffers, the hazards the host must respect (spec/70_reset_and_hazards.md R194, R202). -/

namespace Sys2Proof.Machine

/-- A payload result: its length register and its buffer have a value together, the length is within the capacity, and no lane
at or above the length is listed (R26, R42). -/
def payloadOk (cap : Nat) (len : Option Nat) (buf : Option Buffer) : Bool :=
  match len, buf with
  | none, none => true
  | some n, some b => decide (n ≤ cap) && Buffer.wf n b
  | _, _ => false

/-- A response the instance of capacity `K` can produce: an error has no other field with a value (R173) and is never
EntropyUnavailable (R185); the payloads are sound. -/
def Response.wf (K : Nat) (r : Response) : Bool :=
  decide (r.err ≠ Err.entropyUnavailable.code)
    && (decide (r.err = errOk) || decide (r = Response.bare r.err))
    && payloadOk (Config.TXT_MAX K) r.rtextLen r.rtext
    && payloadOk (Config.KEY_MAX K) r.rdataLen r.rdata

/-- R21, R23: `cmd` has a value exactly in BUSY and `resp` exactly in DONE; in BUSY COMPLETE is 1 to LATENCY(cmd) edges
away; the requests that the state holds and the host presents are ones the port of the instance can carry. -/
def State.inv (K : Nat) (s : State) : Bool :=
  (match s.st, s.cmd, s.resp with
    | .idle, none, none => decide (s.left = 0)
    | .busy, some q, none => q.wf K && decide (1 ≤ s.left) && decide (s.left ≤ Config.latency K (q.toWord K))
    | .done, none, some r => r.wf K && decide (s.left = 0)
    | _, _, _ => false)
  && s.inputs.all fun i => i.req.wf K

/-- R40: both payload buffers of a request are in canonical form and have only the lanes of the instance. -/
def buffersWf (K : Nat) (q : Request) : Bool :=
  Buffer.wf (Config.TXT_MAX K) q.text && Buffer.wf (Config.KEY_MAX K) q.data

/-- Every payload buffer in the state is in canonical form: those of the latched request, of the pending response, and of
the requests the host presents. -/
def Memory.wf (K : Nat) (s : State) : Bool :=
  (match s.cmd with | some q => buffersWf K q | none => true)
  && (match s.resp with
      | some r => Buffer.wf (Config.TXT_MAX K) (r.rtext.getD []) && Buffer.wf (Config.KEY_MAX K) (r.rdata.getD [])
      | none => true)
  && s.inputs.all fun i => buffersWf K i.req

/-- The coming edge accepts a request (R22). -/
def State.accepts (s : State) : Bool := decide (s.st = .idle) && s.edgeIn.reqValid && !s.edgeIn.rst

/-- R194: the host's obligation at the coming edge: a presented request that is not accepted at it stays presented at the edge
after, its read fields unchanged. -/
def State.requestStable (s : State) : Bool :=
  !s.edgeIn.reqValid || s.accepts
    || (s.tick.edgeIn.reqValid && decide (decode s.tick.edgeIn.req = decode s.edgeIn.req))

/-- R202: a run has ended: IDLE, and the host presents no further request. -/
def State.ended (s : State) : Bool :=
  decide (s.st = .idle) && s.inputs.all fun i => !i.reqValid

/-- A step of the instance of capacity `K` that neither faults nor refuses. -/
def safeStep (K : Nat) (s : State) : Prop := ∃ t, stepFor K s = .next t

/-- `n` steps in a row of the default instance, if none of them stops. -/
def stepN : Nat → State → Option State
  | 0, s => some s
  | n + 1, s =>
    match step s with
    | .next t => stepN n t
    | _ => none

/-- Operation `i` completes at `s` with response `r` (R23). -/
def completesWith (i : Instr) (s : State) (r : Response) : Prop :=
  ∃ t, exec i s = .next t ∧ t.st = .done ∧ t.cmd = none ∧ t.resp = some r

/-- A response of a success with a text result and no other (R102, R138, R153). -/
def textResponse (t : List Byte) : Response where
  err := 0
  rtextLen := some t.length
  rtext := some (memWrite [] 0 t)
  rdataLen := none
  rdata := none
  rval := none
  rctr := none

/-- A response of a success with a byte result and no other (R97, R118). -/
def dataResponse (d : List Byte) : Response where
  err := 0
  rtextLen := none
  rtext := none
  rdataLen := some d.length
  rdata := some (memWrite [] 0 d)
  rval := none
  rctr := none

/-- A response of an error: its code, nothing else (R173). -/
def errorResponse (code : BitVec 3) : Response where
  err := code
  rtextLen := none
  rtext := none
  rdataLen := none
  rdata := none
  rval := none
  rctr := none

/-- R93: a text is undecodable when, folded and stripped, it has a character outside the alphabet. -/
def undecodable (t : List Byte) : Bool := (foldStrip t).any fun c => !b32Alphabet.contains c

/-- R70: the digit counts that are not legal. -/
def digitsIllegal (g : BitVec Config.DIGITS_W) : Bool := decide (g.toNat = 0) || decide (10 ≤ g.toNat)

/-- R170, R174: the causes an operation looks for, in the order of priority: whether the cause is there, and the error. -/
def causes (K : Nat) : Instr → List (Bool × Err)
  | .b32enc n _ => [(decide (5 * K < n), .badLength)]
  | .b32dec n t => [(decide (8 * K < n), .badLength), (undecodable (memRead t 0 n), .invalidEncoding)]
  | .hmac n _ _ => [(decide (5 * K < n), .badLength), (decide (n = 0), .invalidSecret)]
  | .trunc n _ g => [(decide (n ≠ 20), .badLength), (digitsIllegal g, .invalidDigitCount)]
  | .tstep _ p => [(decide (p.toNat = 0), .invalidPeriod)]
  | .hotp n _ _ g =>
    [(decide (5 * K < n), .badLength), (decide (n = 0), .invalidSecret), (digitsIllegal g, .invalidDigitCount)]
  | .totp n t _ p g =>
    [(decide (8 * K < n), .badLength), (undecodable (memRead t 0 n), .invalidSecret),
      (decide (p.toNat = 0), .invalidPeriod), (decide ((foldStrip (memRead t 0 n)).length < 2), .invalidSecret),
      (digitsIllegal g, .invalidDigitCount)]
  | .reserved7 => [(true, .illegalOp)]

/-- The code of the first cause that is there, 0 if none is. -/
def firstCause (l : List (Bool × Err)) : BitVec 3 :=
  match l.find? (·.1) with
  | some c => c.2.code
  | none => 0

/-- R171: the error matrix, by operation code. -/
def errorMatrix (op : Nat) (e : Err) : Bool :=
  match e with
  | .invalidEncoding => op == 1
  | .invalidSecret => op == 2 || op == 5 || op == 6
  | .invalidDigitCount => op == 3 || op == 5 || op == 6
  | .entropyUnavailable => false
  | .invalidPeriod => op == 4 || op == 6
  | .illegalOp => op == 7
  | .badLength => op == 0 || op == 1 || op == 2 || op == 3 || op == 5 || op == 6

/-- R63: which payload results an operation writes on success. -/
def writesText : Instr → Bool
  | .b32enc _ _ | .trunc _ _ _ | .hotp _ _ _ _ | .totp _ _ _ _ _ => true
  | .b32dec _ _ | .hmac _ _ _ | .tstep _ _ | .reserved7 => false
def writesData : Instr → Bool
  | .b32dec _ _ | .hmac _ _ _ => true
  | .b32enc _ _ | .trunc _ _ _ | .tstep _ _ | .hotp _ _ _ _ | .totp _ _ _ _ _ | .reserved7 => false
def writesRval : Instr → Bool
  | .trunc _ _ _ => true
  | .b32enc _ _ | .b32dec _ _ | .hmac _ _ _ | .tstep _ _ | .hotp _ _ _ _ | .totp _ _ _ _ _ | .reserved7 => false
def writesRctr : Instr → Bool
  | .tstep _ _ => true
  | .b32enc _ _ | .b32dec _ _ | .hmac _ _ _ | .trunc _ _ _ | .hotp _ _ _ _ | .totp _ _ _ _ _ | .reserved7 => false

/-- The bytes an operation that raises no error stores in `rtext` from lane 0 on. -/
def storedText : Instr → List Byte
  | .b32enc n d => b32Encode (memRead d 0 n)
  | .trunc _ d g => otpText (truncValue (memRead d 0 20)) g.toNat
  | .hotp n d c g => otpText (truncValue (hmacSha1 (memRead d 0 n) (bytesBE c.toNat 8))) g.toNat
  | .totp n t w p g =>
    match b32Decode (memRead t 0 n) with
    | .ok key => otpText (truncValue (hmacSha1 key (bytesBE (w.toNat / p.toNat) 8))) g.toNat
    | .error _ => []
  | .b32dec _ _ | .hmac _ _ _ | .tstep _ _ | .reserved7 => []

/-- The bytes an operation that raises no error stores in `rdata` from lane 0 on. -/
def storedData : Instr → List Byte
  | .b32dec n t =>
    match b32Decode (memRead t 0 n) with
    | .ok r => r
    | .error _ => []
  | .hmac n d c => hmacSha1 (memRead d 0 n) (bytesBE c.toNat 8)
  | .b32enc _ _ | .trunc _ _ _ | .tstep _ _ | .hotp _ _ _ _ | .totp _ _ _ _ _ | .reserved7 => []

/-- A byte sequence, or a sequence of digits in base `base`, read as one number, most significant first (R43). -/
def valueOf (base : Nat) (digits : List Nat) : Nat := digits.foldl (fun a x => a * base + x) 0

end Sys2Proof.Machine
end

