-- ==== Sys2Proof/Certificates/Slice0/Obligations.lean ====
section
/-! DEFINITION. The statements for the provers, from the numbered rules of spec/. A statement with a `K` holds at every capacity
`K >= 4` (R7); one about `exec` or `step` is about the default instance, `Config.K = 32`, which those two are (log entry 2). -/

open Sys2Proof Sys2Proof.Machine

/-! ### The machine: reset, the steps, the handshake -/

/-- R34, R191: a rising edge with `rst = 1`, from any phase, leaves IDLE with `cmd` and `resp` without value, `req_ready = 1`,
`resp_valid = 0`, and nothing of what was there before; `State.reset` is such a state. -/
def Obligations.ResetState : Prop :=
  (∀ s : State, s.edgeIn.rst = true →
    ∃ t, step s = .next t ∧ t.st = .idle ∧ t.cmd = none ∧ t.resp = none ∧ t.reqReady = true ∧ t.respValid = false) ∧
  (∀ s s' : State, s.edgeIn.rst = true → s.inputs = s'.inputs → s.edge = s'.edge → step s = step s') ∧
  State.reset.st = .idle ∧ State.reset.cmd = none ∧ State.reset.resp = none ∧
  State.reset.reqReady = true ∧ State.reset.respValid = false

/-- The invariant holds in the reset state, at every capacity. -/
def Obligations.ResetInvariant : Prop := ∀ K, 4 ≤ K → State.reset.inv K = true

/-- When the latched request's COMPLETE edge has come and `rst` is low, the step is the decoded operation; in particular the step
after `withFetchWord` runs what `decodeTableWord` reads. `step` and `exec` are the default instance of the machine that exists for
every capacity, and there the same holds. -/
def Obligations.StepRunsDecoded : Prop :=
  (∀ (s : State) (q : Request), s.edgeIn.rst = false → s.st = .busy → s.left ≤ 1 → s.cmd = some q →
    step s = exec (decode q) s) ∧
  (∀ (s : State) (nbits w : Nat) (i : Instr), decodeTableWord nbits w = some i →
    step (s.withFetchWord nbits w) = exec i (s.withFetchWord nbits w)) ∧
  (∀ s : State, step s = stepFor Config.K s) ∧ (∀ (i : Instr) (s : State), exec i s = execFor Config.K i s) ∧
  (∀ (K : Nat) (s : State) (q : Request), 4 ≤ K →
    s.edgeIn.rst = false → s.st = .busy → s.left ≤ 1 → s.cmd = some q →
    stepFor K s = execFor K (decode q) s)

/-- R22: ACCEPT in IDLE with `req_valid` and `rst` low latches the port and goes to BUSY; `req_ready = 1` exactly in IDLE; in
BUSY or DONE no request is taken, and one the host holds (R194) is there again at the next edge. -/
def Obligations.AcceptStep : Prop :=
  (∀ s : State, s.st = .idle → s.edgeIn.reqValid = true → s.edgeIn.rst = false →
    ∃ t, step s = .next t ∧ t.st = .busy ∧ t.cmd = some s.edgeIn.req) ∧
  (∀ s : State, s.reqReady = true ↔ s.st = .idle) ∧
  (∀ s t : State, s.st ≠ .idle → step s = .next t → (t.cmd = none ∨ t.cmd = s.cmd) ∧ (t.st = .busy → s.st = .busy)) ∧
  (∀ s t : State, s.st ≠ .idle → s.edgeIn.reqValid = true → s.requestStable = true → step s = .next t →
    t.edgeIn.reqValid = true ∧ decode t.edgeIn.req = decode s.edgeIn.req)

/-- R32: the response to a request is `Exec` of it, whatever else is in the state, at every capacity. -/
def Obligations.ResponseIsExec : Prop :=
  (∀ (s : State) (q : Request), s.edgeIn.rst = false → s.st = .busy → s.left ≤ 1 → s.cmd = some q →
    ∃ t, step s = .next t ∧ t.st = .done ∧ t.cmd = none ∧ t.resp = some (execRequest Config.K q)) ∧
  (∀ (K : Nat) (s : State) (q : Request), 4 ≤ K →
    s.edgeIn.rst = false → s.st = .busy → s.left ≤ 1 → s.cmd = some q →
    ∃ t, stepFor K s = .next t ∧ t.st = .done ∧ t.cmd = none ∧ t.resp = some (execRequest K q))

/-- R25: RETIRE in DONE with `resp_ready` and `rst` low goes to IDLE and `resp` loses its value; `resp_valid = 1` exactly in
DONE; without `resp_ready` the response is held. -/
def Obligations.RetireStep : Prop :=
  (∀ s : State, s.st = .done → s.edgeIn.respReady = true → s.edgeIn.rst = false →
    ∃ t, step s = .next t ∧ t.st = .idle ∧ t.resp = none) ∧
  (∀ s : State, s.respValid = true ↔ s.st = .done) ∧
  (∀ s : State, s.st = .done → s.edgeIn.respReady = false → s.edgeIn.rst = false →
    ∃ t, step s = .next t ∧ t.st = .done ∧ t.resp = s.resp)

/-- R27: the status outputs; no operation reads what an earlier one left, and each writes `err` afresh. -/
def Obligations.StatusOutputs : Prop :=
  (∀ (K : Nat) (s : State), 4 ≤ K →
    (s.ports K).reqReady = decide (s.st = .idle) ∧ (s.ports K).respValid = decide (s.st = .done)) ∧
  (∀ (K : Nat) (s : State) (r : Response), 4 ≤ K → s.resp = some r → (s.ports K).err = r.err) ∧
  (∀ (i : Instr) (s s' : State), ∃ t t', exec i s = .next t ∧ exec i s' = .next t' ∧
    t.respErr.isSome = true ∧ t.resp = t'.resp)

/-! ### The operations -/

/-- R102: B32ENC. -/
def Obligations.B32encResult : Prop :=
  ∀ (n : Nat) (d : Buffer) (s : State),
    completesWith (.b32enc n d) s
      (if Config.KEY_MAX Config.K < n then errorResponse 7 else textResponse (b32Encode (memRead d 0 n)))

/-- R97: B32DEC. -/
def Obligations.B32decResult : Prop :=
  ∀ (n : Nat) (d : Buffer) (s : State),
    completesWith (.b32dec n d) s
      (if Config.TXT_MAX Config.K < n then errorResponse 7
       else match b32Decode (memRead d 0 n) with
         | .error _ => errorResponse 1
         | .ok r => dataResponse r)

/-- R118: HMAC. -/
def Obligations.HmacResult : Prop :=
  ∀ (n : Nat) (d : Buffer) (c : BitVec Config.CTR_W) (s : State),
    completesWith (.hmac n d c) s
      (if Config.KEY_MAX Config.K < n then errorResponse 7
       else if n = 0 then errorResponse 2
       else { dataResponse (hmacSha1 (memRead d 0 n) (bytesBE c.toNat 8)) with rdataLen := some 20 })

/-- R136: TRUNC. -/
def Obligations.TruncResult : Prop :=
  ∀ (n : Nat) (d : Buffer) (g : BitVec Config.DIGITS_W) (s : State),
    completesWith (.trunc n d g) s
      (if n ≠ 20 then errorResponse 7
       else if g.toNat < 1 ∨ 9 < g.toNat then errorResponse 3
       else
        { textResponse (decText (truncValue (memRead d 0 20) % 10 ^ g.toNat) g.toNat) with
          rval := some (BitVec.ofNat 31 (truncValue (memRead d 0 20)))
          rtextLen := some g.toNat })

/-- R151: TSTEP. -/
def Obligations.TstepResult : Prop :=
  ∀ (w : BitVec Config.NOW_W) (p : BitVec Config.PERIOD_W) (s : State),
    completesWith (.tstep w p) s
      (if p = 0 then errorResponse 5 else { errorResponse 0 with rctr := some (BitVec.ofNat 64 (w.toNat / p.toNat)) })

/-- R138: HOTP. -/
def Obligations.HotpResult : Prop :=
  ∀ (n : Nat) (d : Buffer) (c : BitVec Config.CTR_W) (g : BitVec Config.DIGITS_W) (s : State),
    completesWith (.hotp n d c g) s
      (if Config.KEY_MAX Config.K < n then errorResponse 7
       else if n = 0 then errorResponse 2
       else if g.toNat < 1 ∨ 9 < g.toNat then errorResponse 3
       else
        { textResponse (decText (truncValue (hmacSha1 (memRead d 0 n) (bytesBE c.toNat 8)) % 10 ^ g.toNat) g.toNat)
          with rtextLen := some g.toNat })

/-- R153: TOTP, its checks in the order of the rule. -/
def Obligations.TotpResult : Prop :=
  ∀ (n : Nat) (d : Buffer) (w : BitVec Config.NOW_W) (p : BitVec Config.PERIOD_W)
    (g : BitVec Config.DIGITS_W) (s : State),
    completesWith (.totp n d w p g) s
      (if Config.TXT_MAX Config.K < n then errorResponse 7
       else match b32Decode (memRead d 0 n) with
        | .error _ => errorResponse 2
        | .ok key =>
          if p = 0 then errorResponse 5
          else if key.length = 0 then errorResponse 2
          else if g.toNat < 1 ∨ 9 < g.toNat then errorResponse 3
          else
            { textResponse (decText (truncValue (hmacSha1 key (bytesBE (w.toNat / p.toNat) 8)) % 10 ^ g.toNat) g.toNat)
              with rtextLen := some g.toNat })

/-- R65: op 7 is the one reserved code, and completes with `err = 6` and nothing else. -/
def Obligations.ReservedResult : Prop :=
  (∀ q : Request, decode q = .reserved7 ↔ q.op = 7) ∧
  (∀ (q : Request) (s : State), q.op = 7 → completesWith (decode q) s (errorResponse 6)) ∧
  (∀ s : State, completesWith .reserved7 s (errorResponse 6))

/-- R64: `Exec` dispatches on `op`; each operation gives a response with `err = 0` in which exactly the result registers of R63
have a value, or an error's code and nothing else. -/
def Obligations.ExecDispatch : Prop :=
  (∀ q : Request, decode q =
    if q.op = 0 then .b32enc q.dataLen q.data else if q.op = 1 then .b32dec q.textLen q.text
    else if q.op = 2 then .hmac q.dataLen q.data q.ctr else if q.op = 3 then .trunc q.dataLen q.data q.digits
    else if q.op = 4 then .tstep q.now q.period else if q.op = 5 then .hotp q.dataLen q.data q.ctr q.digits
    else if q.op = 6 then .totp q.textLen q.text q.now q.period q.digits else .reserved7) ∧
  (∀ (K : Nat) (i : Instr), 4 ≤ K → ∃ r : Response, responseTo K i = r ∧
    ((r.err ≠ 0 ∧ r = errorResponse r.err) ∨
     (r.err = 0 ∧ r.rtextLen.isSome = writesText i ∧ r.rtext.isSome = writesText i ∧ r.rdataLen.isSome = writesData i ∧
      r.rdata.isSome = writesData i ∧ r.rval.isSome = writesRval i ∧ r.rctr.isSome = writesRctr i)))

/-- R173: every operation, error or not, completes to DONE with its whole result and `err = 0`, or with a non-zero code and no
other field; and the response is retired in the same way: at the next edge, with `resp_ready` high and `rst` low, CORE goes to
IDLE and the response loses its value; while `resp_ready` is low it is held. -/
def Obligations.ErrorReported : Prop :=
  ∀ (i : Instr) (s : State), ∃ t r, exec i s = .next t ∧ t.st = .done ∧ t.resp = some r ∧ t.cmd = none ∧
    (∀ e, opResult Config.K i = .error e → r = errorResponse e.code ∧ r.err ≠ 0) ∧
    (∀ r', opResult Config.K i = .ok r' → r = r' ∧ r.err = 0) ∧
    (t.edgeIn.rst = false → t.edgeIn.respReady = true →
      ∃ u, step t = .next u ∧ u.st = .idle ∧ u.cmd = none ∧ u.resp = none) ∧
    (t.edgeIn.rst = false → t.edgeIn.respReady = false →
      ∃ u, step t = .next u ∧ u.st = .done ∧ u.cmd = none ∧ u.resp = some r)

/-- R175: an error changes nothing but `resp` and `st`. Of the state before, an operation that raises an error keeps the
presented inputs, but for the record of the edge used up, and gives `st`, `resp` and (R21) `cmd` the values of DONE. It leaves the
same state as any other operation but for `resp`, and after RETIRE exactly the same. That the inputs stand in the state, that
`left` becomes 0 and that `edge` counts on is the model's (log entries 1, 3 and 4). -/
def Obligations.ErrorsLeaveNothing : Prop :=
  (∀ (i : Instr) (e : Err) (s t : State), opResult Config.K i = .error e → exec i s = .next t →
    t = { s with
          st := .done, cmd := none, resp := some (errorResponse e.code), left := 0,
          inputs := s.inputs.tail, edge := s.edge + 1 }) ∧
  (∀ (i j : Instr) (s t u : State), exec i s = .next t → exec j s = .next u →
    { t with resp := u.resp } = u ∧ t.retire = u.retire)

/-- The frame of every operation on the result buffers and the result registers other than `err`: the lanes it stores hold exactly
the stored bytes, every other lane of both buffers and every such register R63 does not name is as before the operation (without
value), and an error stores nothing in any of them. The last clause, that the inputs the host presents are as before but for the
record of the edge used up, is the model's: the host's moves stand in State as a list (DESIGN CHOICE, log entry 1). What `st`,
`cmd`, `left`, `edge` and `err` become is said by ErrorReported and ErrorsLeaveNothing. -/
def Obligations.ResultFrame : Prop :=
  ∀ (i : Instr) (s : State), s.resp = none → ∃ t, exec i s = .next t ∧
    (∀ r, opResult Config.K i = .ok r →
      (∀ k, t.respRtextLane k = if k < (storedText i).length then (storedText i)[k]? else s.respRtextLane k) ∧
      (∀ k, t.respRdataLane k = if k < (storedData i).length then (storedData i)[k]? else s.respRdataLane k) ∧
      (writesText i = false → t.respRtextLen = s.respRtextLen) ∧ (writesData i = false → t.respRdataLen = s.respRdataLen) ∧
      (writesRval i = false → t.respRval = s.respRval) ∧ (writesRctr i = false → t.respRctr = s.respRctr)) ∧
    (∀ e, opResult Config.K i = .error e →
      (∀ k, t.respRtextLane k = s.respRtextLane k ∧ t.respRdataLane k = s.respRdataLane k) ∧
      t.respRtextLen = s.respRtextLen ∧ t.respRdataLen = s.respRdataLen ∧ t.respRval = s.respRval ∧
      t.respRctr = s.respRctr) ∧
    t.inputs = s.inputs.tail

/-- R42: lanes at or above the length carry no value: an operation gives the same result whatever they hold, and in a response
they have no value; a length above the capacity, in an operation that uses the buffer, is BadLength. -/
def Obligations.LanesAboveLength : Prop :=
  (∀ (K n : Nat) (d d' : Buffer) (c : BitVec Config.CTR_W) (g : BitVec Config.DIGITS_W),
    4 ≤ K → (∀ k < n, Buffer.read d k = Buffer.read d' k) →
    opResult K (.b32enc n d) = opResult K (.b32enc n d') ∧ opResult K (.hmac n d c) = opResult K (.hmac n d' c) ∧
    opResult K (.trunc n d g) = opResult K (.trunc n d' g) ∧ opResult K (.hotp n d c g) = opResult K (.hotp n d' c g)) ∧
  (∀ (K n : Nat) (d d' : Buffer) (w : BitVec Config.NOW_W) (p : BitVec Config.PERIOD_W)
    (g : BitVec Config.DIGITS_W), 4 ≤ K → (∀ k < n, Buffer.read d k = Buffer.read d' k) →
    opResult K (.b32dec n d) = opResult K (.b32dec n d') ∧ opResult K (.totp n d w p g) = opResult K (.totp n d' w p g)) ∧
  (∀ (s : State) (k : Nat), (lenValue s.respRtextLen ≤ k → s.respRtextLane k = none) ∧
    (lenValue s.respRdataLen ≤ k → s.respRdataLane k = none)) ∧
  (∀ (K n : Nat) (d : Buffer) (c : BitVec Config.CTR_W) (g : BitVec Config.DIGITS_W), 4 ≤ K → Config.KEY_MAX K < n →
    responseTo K (.b32enc n d) = errorResponse 7 ∧ responseTo K (.hmac n d c) = errorResponse 7 ∧
    responseTo K (.trunc n d g) = errorResponse 7 ∧ responseTo K (.hotp n d c g) = errorResponse 7) ∧
  (∀ (K n : Nat) (d : Buffer) (w : BitVec Config.NOW_W) (p : BitVec Config.PERIOD_W)
    (g : BitVec Config.DIGITS_W), 4 ≤ K → Config.TXT_MAX K < n →
    responseTo K (.b32dec n d) = errorResponse 7 ∧ responseTo K (.totp n d w p g) = errorResponse 7)

/-- R66: fields an operation does not read are ignored whatever they hold: two requests that agree in `op` and in the fields
that operation reads get the same response; a read length field is out of range above the capacity, and for TRUNC at every value
but 20; on the port of the default instance that is exactly 161 to 255 and 257 to 511. -/
def Obligations.UnreadFieldsIgnored : Prop :=
  (∀ (K : Nat) (q q' : Request), 4 ≤ K → q.op = q'.op →
    ((q.op = 0 ∨ q.op = 2 ∨ q.op = 3 ∨ q.op = 5) → q.dataLen = q'.dataLen ∧ q.data = q'.data) →
    ((q.op = 1 ∨ q.op = 6) → q.textLen = q'.textLen ∧ q.text = q'.text) →
    ((q.op = 2 ∨ q.op = 5) → q.ctr = q'.ctr) → ((q.op = 3 ∨ q.op = 5 ∨ q.op = 6) → q.digits = q'.digits) →
    ((q.op = 4 ∨ q.op = 6) → q.now = q'.now ∧ q.period = q'.period) →
    execRequest K q = execRequest K q') ∧
  (∀ (K : Nat) (q : Request), 4 ≤ K → ((execRequest K q).err = 7 ↔
    ((q.op = 1 ∨ q.op = 6) ∧ Config.TXT_MAX K < q.textLen) ∨
    ((q.op = 0 ∨ q.op = 2 ∨ q.op = 5) ∧ Config.KEY_MAX K < q.dataLen) ∨ (q.op = 3 ∧ q.dataLen ≠ 20))) ∧
  (∀ q : Request, q.wf Config.K = true → ((execRequest Config.K q).err = 7 ↔
    ((q.op = 1 ∨ q.op = 6) ∧ 257 ≤ q.textLen ∧ q.textLen ≤ 511) ∨
    ((q.op = 0 ∨ q.op = 2 ∨ q.op = 5) ∧ 161 ≤ q.dataLen ∧ q.dataLen ≤ 255) ∨ (q.op = 3 ∧ q.dataLen ≠ 20)))

/-- R171: an operation raises an error if and only if the matrix allows it: for every pair marked there are operands that raise
it, well-formed ones at the default instance, and no others are ever raised. -/
def Obligations.ErrorMatrix : Prop :=
  (∀ (K : Nat) (op : BitVec 3) (e : Err), 4 ≤ K →
    (errorMatrix op.toNat e = true ↔ ∃ i : Instr, i.toRequest.op = op ∧ opResult K i = .error e)) ∧
  (∀ (op : BitVec 3) (e : Err), errorMatrix op.toNat e = true →
    ∃ i : Instr, i.wf Config.K = true ∧ i.toRequest.op = op ∧ opResult Config.K i = .error e)

/-- R170, R174: a request that meets causes reports the first in the order of priority, one that meets none succeeds; and the
five consequences R174 names. -/
def Obligations.ErrorPriority : Prop :=
  ∀ K, 4 ≤ K →
    (∀ i : Instr, (responseTo K i).err = firstCause (causes K i)) ∧
    responseTo K (reqTotp [0x31] 59 0 0) = errorResponse 2 ∧ responseTo K (reqTotp [] 59 0 0) = errorResponse 5 ∧
    responseTo K (reqTotp [] 59 30 0) = errorResponse 2 ∧ responseTo K (reqHotp [] 0 0) = errorResponse 2 ∧
    (∀ d, responseTo K (.trunc 19 d 0) = errorResponse 7)

/-! ### Base32 -/

/-- R91: StripPad removes the longest suffix of `=`, any number of them, a text of only `=` strips to the empty text, and
folding and stripping commute. -/
def Obligations.StripPadLaw : Prop :=
  (∀ t : List Byte, ∃ k, t = stripPad t ++ List.replicate k 0x3D ∧ (stripPad t).getLast? ≠ some 0x3D) ∧
  (∀ (t : List Byte) (k : Nat), stripPad (t ++ List.replicate k 0x3D) = stripPad t) ∧
  (∀ k, stripPad (List.replicate k 0x3D) = []) ∧
  (∀ t : List Byte, stripPad (t.map upper) = (stripPad t).map upper)

/-- R90, R94: B32Decode folds its text first: a lower-case ASCII letter stands for the letter 0x20 below it, and no other
character is changed, so a text decodes as the text with its lower-case letters replaced. It fails exactly on a text with a
character outside the alphabet; otherwise, with `n` characters and their 5-bit values as one string of `5*n` bits, output byte
`j`, for `j < floor(5*n/8)`, is bits `8*j` to `8*j+7` from the left. -/
def Obligations.DecodeBits : Prop :=
  (∀ c : Byte, (0x61 ≤ c.toNat ∧ c.toNat ≤ 0x7A → (upper c).toNat = c.toNat - 0x20) ∧
    (c.toNat < 0x61 ∨ 0x7A < c.toNat → upper c = c)) ∧
  (∀ t : List Byte,
    b32Decode t = b32Decode (t.map fun c =>
      if 0x61 ≤ c.toNat ∧ c.toNat ≤ 0x7A then BitVec.ofNat 8 (c.toNat - 0x20) else c)) ∧
  (∀ t : List Byte,
    (b32Decode t = .error .invalidEncoding ↔ ∃ c ∈ foldStrip t, b32Index c = none) ∧
    (∀ r, b32Decode t = .ok r →
      r.length = 5 * (foldStrip t).length / 8 ∧
      ∀ j (hj : j < r.length),
        (r[j]).toNat = valueOf 32 ((foldStrip t).filterMap b32Index) / 2 ^ (5 * (foldStrip t).length - 8 * (j + 1)) % 2 ^ 8))

/-- R95: on success the result has `floor(5*n/8)` bytes, `n` the number of characters after stripping: 0, 0, 1, 1, 2, 3, 3, 4, 5
for `n` up to 8, and never more than KEY_MAX. -/
def Obligations.DecodeLength : Prop :=
  (∀ (K n : Nat) (d : Buffer) (r : Response), 4 ≤ K → opResult K (.b32dec n d) = .ok r →
    ∃ len, r.rdataLen = some len ∧ len = 5 * (stripPad (memRead d 0 n)).length / 8 ∧ len ≤ Config.KEY_MAX K) ∧
  ((List.range 9).map fun n => 5 * n / 8) = [0, 0, 1, 1, 2, 3, 3, 4, 5]

/-- The encoder, closed form: with `n` bytes as one string of `8*n` bits, `m = ceil(8*n/5)` data characters; character `k` is
the alphabet's at bits `5*k` to `5*k+4` from the left of the string filled up with zeros to `5*m` bits; then `=` up to
`8*ceil(n/5)` characters. -/
def Obligations.EncodeBits : Prop :=
  ∀ b : List Byte,
    b32Encode b =
      ((List.range ((8 * b.length + 4) / 5)).map fun k =>
        b32Char (valueOf 256 (b.map (·.toNat)) * 2 ^ (5 * ((8 * b.length + 4) / 5) - 8 * b.length)
          / 2 ^ (5 * ((8 * b.length + 4) / 5) - 5 * (k + 1)) % 32))
      ++ List.replicate (8 * ((b.length + 4) / 5) - (8 * b.length + 4) / 5) 0x3D

/-- The round trip: decoding an encoding gives the bytes back, for every byte sequence of any length. -/
def Obligations.RoundTrip : Prop := ∀ b : List Byte, b32Decode (b32Encode b) = .ok b

/-- The round trip through CORE: B32ENC of any sequence that fits, then B32DEC of the text that response carries, gives the
bytes back; that text and its length are ones the request port can carry. -/
def Obligations.RoundTripRequests : Prop :=
  ∀ (K : Nat) (b : List Byte), 4 ≤ K → b.length ≤ Config.KEY_MAX K →
    ∃ n t, (responseTo K (reqB32enc b)).rtextLen = some n ∧ (responseTo K (reqB32enc b)).rtext = some t ∧
      (Instr.b32dec n t).wf K = true ∧
      responseTo K (.b32dec n t) = dataResponse b ∧ (responseTo K (.b32dec n t)).dataValue = some b

/-- R68: a character's value is its position in the alphabet; A to Z are 0 to 25, 2 to 7 are 26 to 31; 0, 1, 8 and 9 are not
in it. -/
def Obligations.Alphabet : Prop :=
  b32Alphabet.length = 32 ∧ (∀ (c : Byte) (i : Nat), b32Index c = some i ↔ b32Alphabet[i]? = some c) ∧
  (∀ i < 26, b32Char i = BitVec.ofNat 8 (0x41 + i)) ∧ (∀ i < 6, b32Char (26 + i) = BitVec.ofNat 8 (0x32 + i)) ∧
  (∀ c ∈ ([0x30, 0x31, 0x38, 0x39] : List Byte), b32Index c = none)

/-! ### SHA-1 and HMAC -/

/-- R111: Sha1Pad appends 0x80, the least number of zero bytes that makes the length a multiple of 64, and the length in bits
as 8 bytes big-endian. -/
def Obligations.Sha1PadShape : Prop :=
  ∀ m : List Byte, ∃ z, sha1Pad m = m ++ [0x80] ++ List.replicate z 0x00 ++ bytesBE (8 * m.length) 8 ∧
    (sha1Pad m).length % 64 = 0 ∧ z < 64 ∧ ((z : Int) = (55 - (m.length : Int)) % 64) ∧
    (∀ z', (m.length + 1 + z' + 8) % 64 = 0 → z ≤ z')

/-- R112: the message schedule. -/
def Obligations.Sha1Schedule : Prop :=
  ∀ blk : List Byte,
    (schedule blk).length = 80 ∧
    (∀ t < 16, (schedule blk).getD t 0 =
      BitVec.ofNat 32 ((blk.getD (4 * t) 0).toNat * 2 ^ 24 + (blk.getD (4 * t + 1) 0).toNat * 2 ^ 16
        + (blk.getD (4 * t + 2) 0).toNat * 2 ^ 8 + (blk.getD (4 * t + 3) 0).toNat)) ∧
    (∀ t, 16 ≤ t → t < 80 → (schedule blk).getD t 0 =
      ((schedule blk).getD (t - 3) 0 ^^^ (schedule blk).getD (t - 8) 0 ^^^ (schedule blk).getD (t - 14) 0
        ^^^ (schedule blk).getD (t - 16) 0).rotateLeft 1)

/-- R113: compression: 80 rounds from the chaining values, each as the rule writes it, and the sums. -/
def Obligations.Sha1Compression : Prop :=
  ∀ (h : Chain) (blk : List Byte), ∃ f : Nat → Chain, f 0 = h ∧
    (∀ t < 80, f (t + 1) =
      ⟨(f t).a.rotateLeft 5 + sha1F t (f t).b (f t).c (f t).d + (f t).e + sha1K t + (schedule blk).getD t 0,
        (f t).a, (f t).b.rotateLeft 30, (f t).c, (f t).d⟩) ∧
    sha1Compress h blk = ⟨h.a + (f 80).a, h.b + (f 80).b, h.c + (f 80).c, h.d + (f 80).d, h.e + (f 80).e⟩

/-- R114: the hash: the padded message's 64-byte blocks compressed in order from the initial values, then the digest. -/
def Obligations.Sha1Blocks : Prop :=
  ∀ m : List Byte, ∃ g : Nat → Chain, g 0 = ⟨0x67452301, 0xEFCDAB89, 0x98BADCFE, 0x10325476, 0xC3D2E1F0⟩ ∧
    (∀ i < (sha1Pad m).length / 64, g (i + 1) = sha1Compress (g i) (((sha1Pad m).drop (64 * i)).take 64)) ∧
    sha1 m = sha1Digest (g ((sha1Pad m).length / 64))

/-- R115: the digest is 20 bytes, the five words most significant byte first; the two check values. -/
def Obligations.Sha1DigestBytes : Prop :=
  (∀ h : Chain, (sha1Digest h).length = 20 ∧
    ∀ i < 4, (sha1Digest h).getD i 0 = BitVec.ofNat 8 (h.a.toNat >>> (24 - 8 * i)) ∧
      (sha1Digest h).getD (4 + i) 0 = BitVec.ofNat 8 (h.b.toNat >>> (24 - 8 * i)) ∧
      (sha1Digest h).getD (8 + i) 0 = BitVec.ofNat 8 (h.c.toNat >>> (24 - 8 * i)) ∧
      (sha1Digest h).getD (12 + i) 0 = BitVec.ofNat 8 (h.d.toNat >>> (24 - 8 * i)) ∧
      (sha1Digest h).getD (16 + i) 0 = BitVec.ofNat 8 (h.e.toNat >>> (24 - 8 * i))) ∧
  sha1 [] = bytesBE 0xda39a3ee5e6b4b0d3255bfef95601890afd80709 20 ∧
  sha1 [0x61, 0x62, 0x63] = bytesBE 0xa9993e364706816aba3e25717850c26c9cd0d89d 20

/-- R116: the keyed hash: a key block of exactly 64 bytes, the two pads, the two hashes; 20 bytes. -/
def Obligations.HmacStructure : Prop :=
  ∀ key msg : List Byte, ∃ k0 : List Byte,
    k0 = (if 64 < key.length then sha1 key else key)
      ++ List.replicate (64 - (if 64 < key.length then sha1 key else key).length) 0x00 ∧
    k0.length = 64 ∧ (64 < key.length → (sha1 key).length = 20) ∧
    hmacSha1 key msg = sha1 (k0.map (fun x => x ^^^ 0x5C) ++ sha1 (k0.map (fun x => x ^^^ 0x36) ++ msg)) ∧
    (hmacSha1 key msg).length = 20

/-- R120: a key longer than 64 bytes is replaced by its 20-byte hash; one of exactly 64 bytes is used as it is. -/
def Obligations.LongKeys : Prop :=
  (∀ key msg : List Byte, 64 < key.length → (sha1 key).length = 20 ∧ hmacSha1 key msg = hmacSha1 (sha1 key) msg) ∧
  (∀ key msg : List Byte, key.length = 64 →
    hmacSha1 key msg = sha1 (key.map (fun x => x ^^^ 0x5C) ++ sha1 (key.map (fun x => x ^^^ 0x36) ++ msg)))

/-- R71: the counter block: 8 bytes, byte `i` bits `63-8*i : 56-8*i` of the counter; the two examples. -/
def Obligations.CounterBlock : Prop :=
  (∀ c : BitVec Config.CTR_W, (counterBlock c.toNat).length = 8 ∧
    ∀ i < 8, (counterBlock c.toNat).getD i 0 = c.extractLsb' (8 * (7 - i)) 8) ∧
  counterBlock 1 = [0, 0, 0, 0, 0, 0, 0, 1] ∧ counterBlock 0x23523EC = [0, 0, 0, 0, 0x02, 0x35, 0x23, 0xEC]

/-! ### HOTP, TOTP and time -/

/-- R131, R132: the truncated value: the four bytes at the offset, the first without its top bit. That they lie inside the digest
is R131's, which the spec marks as derived from the 4-bit mask. -/
def Obligations.TruncatedValue : Prop :=
  ∀ d : List Byte, d.length = 20 → ∃ o, o = (d.getD 19 0).toNat % 16 ∧ o + 3 ≤ 18 ∧
    truncValue d = (((d.getD o 0).toNat &&& 0x7F) <<< 24) ||| ((d.getD (o + 1) 0).toNat <<< 16)
      ||| ((d.getD (o + 2) 0).toNat <<< 8) ||| (d.getD (o + 3) 0).toNat ∧
    truncValue d = be32 (d.drop o) &&& 0x7FFFFFFF ∧ truncValue d ≤ 2147483647

/-- R134: the OTP text: exactly `digits` characters, all decimal digits, character `i` as the rule gives it, the number they
write being `P mod 10^digits`; 42 renders as "000042". -/
def Obligations.OtpTextDigits : Prop :=
  (∀ p n : Nat, (otpText p n).length = n ∧
    (∀ i (hi : i < (otpText p n).length), ((otpText p n)[i]).toNat = 0x30 + p % 10 ^ n / 10 ^ (n - 1 - i) % 10 ∧
      0x30 ≤ ((otpText p n)[i]).toNat ∧ ((otpText p n)[i]).toNat ≤ 0x39) ∧
    valueOf 10 ((otpText p n).map fun c => c.toNat - 0x30) = p % 10 ^ n) ∧
  otpText 42 6 = [0x30, 0x30, 0x30, 0x30, 0x34, 0x32]

/-- The text for `n` digits is the last `n` characters of the text for any `m >= n` digits from the same digest, and
`rtext_len` is the digit count. -/
def Obligations.FewerDigitsAreASuffix : Prop :=
  ∀ (K : Nat) (d : Buffer) (m n : BitVec Config.DIGITS_W) (rm rn : Response), 4 ≤ K → n.toNat ≤ m.toNat →
    opResult K (.trunc 20 d m) = .ok rm → opResult K (.trunc 20 d n) = .ok rn →
    rm.rval = rn.rval ∧ rn.rtextLen = some n.toNat ∧
    ∃ tm tn, rm.textValue = some tm ∧ rn.textValue = some tn ∧ tn = tm.drop (m.toNat - n.toNat)

/-- HOTP equals HMAC followed by TRUNC of the digest, the same text or the same error. -/
def Obligations.HotpByUnits : Prop :=
  ∀ (K n : Nat) (d : Buffer) (c : BitVec Config.CTR_W) (g : BitVec Config.DIGITS_W), 4 ≤ K →
    hotpByUnits K n d c g = textResult (responseTo K (.hotp n d c g))

/-- TOTP equals B32DEC, TSTEP, HMAC and TRUNC in that order, stopping at the first error and reporting InvalidEncoding as
InvalidSecret: the same text or the same error code, for every request. -/
def Obligations.TotpByUnits : Prop :=
  ∀ (K n : Nat) (d : Buffer) (w : BitVec Config.NOW_W) (p : BitVec Config.PERIOD_W)
    (g : BitVec Config.DIGITS_W), 4 ≤ K → totpByUnits K n d w p g = textResult (responseTo K (.totp n d w p g))

/-- Window stability: two TOTP requests that differ only in `now` get the same response when both times lie in one window. -/
def Obligations.WindowStability : Prop :=
  ∀ (K n : Nat) (d : Buffer) (w w' : BitVec Config.NOW_W) (p : BitVec Config.PERIOD_W)
    (g : BitVec Config.DIGITS_W), 4 ≤ K → w.toNat / p.toNat = w'.toNat / p.toNat →
    responseTo K (.totp n d w p g) = responseTo K (.totp n d w' p g)

/-- R150: the counter is the number of whole `period`-second intervals in `now`: `floor(now / period)` for `period >= 1`, at
most `now`; nothing wraps. -/
def Obligations.TimeCounter : Prop :=
  ∀ (w : BitVec Config.NOW_W) (p : BitVec Config.PERIOD_W) (s : State), 1 ≤ p.toNat →
    ∃ c : BitVec Config.CTR_W, completesWith (.tstep w p) s { errorResponse 0 with rctr := some c } ∧
      c.toNat * p.toNat ≤ w.toNat ∧ w.toNat < (c.toNat + 1) * p.toNat ∧ c.toNat ≤ w.toNat

/-- GENSECRET: without a secure source the host reports EntropyUnavailable (code 4) and issues no request, whatever the length;
with one and a `byteLength` from 1 to KEY_MAX it issues a well-formed B32ENC of exactly that many drawn bytes and returns their
encoding; for 20 bytes the text has 32 characters and no `=`. -/
def Obligations.GenSecret : Prop :=
  ∀ K, 4 ≤ K →
    (∀ n : Nat, genSecret K none n = .error 4 ∧ genSecretRequest none n = .error .entropyUnavailable) ∧
    (∀ (f : Nat → Byte) (n : Nat), 1 ≤ n → n ≤ Config.KEY_MAX K →
      ∃ b : List Byte, b.length = n ∧ (∀ k < n, b.getD k 0 = f k) ∧
        genSecretRequest (some f) n = .ok (reqB32enc b) ∧ (reqB32enc b).wf K = true ∧
        genSecret K (some f) n = .ok (b32Encode b)) ∧
    (∀ f : Nat → Byte, ∃ t, genSecret K (some f) 20 = .ok t ∧ t.length = 32 ∧ 0x3D ∉ t)

/-! ### The machine as a whole -/

/-- The invariant is kept by every step, from every state that has it, at every capacity. -/
def Obligations.InvariantKept : Prop :=
  (∀ s t : State, s.inv Config.K = true → step s = .next t → t.inv Config.K = true) ∧
  (∀ (K : Nat) (s t : State), 4 ≤ K → s.inv K = true → stepFor K s = .next t → t.inv K = true)

/-- Every payload buffer of the state stays in canonical form, in every step from every state, reachable or not, at every
capacity. -/
def Obligations.MemoryCanonicalKept : Prop :=
  (∀ s t : State, Memory.wf Config.K s = true → step s = .next t → Memory.wf Config.K t = true) ∧
  (∀ K, 4 ≤ K → Memory.wf K State.reset = true ∧
    ∀ s t : State, Memory.wf K s = true → stepFor K s = .next t → Memory.wf K t = true)

/-- From a state with the invariant every step has a next state: no edge faults or refuses. -/
def Obligations.NeverStops : Prop :=
  (∀ s : State, s.inv Config.K = true → ∃ t, step s = .next t) ∧
  (∀ (K : Nat) (s : State), 4 ≤ K → s.inv K = true → safeStep K s)

/-- R23: a request accepted in IDLE is finished LATENCY(cmd) edges after the ACCEPT edge, at least one, with `resp = Exec(cmd)`,
whatever the host does meanwhile short of RESET. -/
def Obligations.AcceptedIsAnswered : Prop :=
  ∀ s : State, s.st = .idle → s.edgeIn.reqValid = true →
    (∀ k ≤ Config.latency Config.K (s.edgeIn.req.toWord Config.K), (s.inputs.getD k EdgeIn.quiet).rst = false) →
    1 ≤ Config.latency Config.K (s.edgeIn.req.toWord Config.K) ∧
    (∀ k, 1 ≤ k → k ≤ Config.latency Config.K (s.edgeIn.req.toWord Config.K) →
      ∃ t, stepN k s = some t ∧ t.st = .busy ∧ t.cmd = some s.edgeIn.req) ∧
    ∃ t, stepN (Config.latency Config.K (s.edgeIn.req.toWord Config.K) + 1) s = some t ∧ t.st = .done ∧
      t.resp = some (execRequest Config.K s.edgeIn.req)

/-- R195: no request is accepted in BUSY or DONE: a step comes to BUSY only from BUSY with the same request, or from IDLE with
the request presented; a host that never retires stalls CORE for ever in DONE with `req_ready = 0`. -/
def Obligations.OneAtATime : Prop :=
  (∀ s t : State, step s = .next t → t.st = .busy →
    (s.st = .busy ∧ t.cmd = s.cmd) ∨
    (s.st = .idle ∧ s.edgeIn.reqValid = true ∧ s.edgeIn.rst = false ∧ t.cmd = some s.edgeIn.req)) ∧
  (∀ (n : Nat) (s : State), s.st = .done → (∀ i ∈ s.inputs, i.rst = false ∧ i.respReady = false) →
    ∃ t, stepN n s = some t ∧ t.st = .done ∧ t.reqReady = false ∧ t.resp = s.resp)

/-- After ACCEPT the request port has no effect: in BUSY or DONE, two states that differ only in the requests presented step
alike. -/
def Obligations.PortIgnoredAfterAccept : Prop :=
  ∀ (s s' t : State), s.st ≠ .idle → s'.st = s.st → s'.cmd = s.cmd → s'.resp = s.resp → s'.left = s.left →
    s'.edgeIn.rst = s.edgeIn.rst → s'.edgeIn.respReady = s.edgeIn.respReady → step s = .next t →
    ∃ t', step s' = .next t' ∧ t'.st = t.st ∧ t'.cmd = t.cmd ∧ t'.resp = t.resp ∧ t'.left = t.left

/-- While a response (a sound one, as `State.inv` says) is pending, the ports show the value of every register and lane that has
one, and show it again after every edge until RETIRE or RESET. -/
def Obligations.ResponseReadStable : Prop :=
  ∀ (s : State) (n : Nat), s.st = .done → (∀ r, s.resp = some r → r.wf Config.K = true) →
    (∀ k < n, (s.inputs.getD k EdgeIn.quiet).rst = false ∧ (s.inputs.getD k EdgeIn.quiet).respReady = false) →
    ∃ t, stepN n s = some t ∧ (t.ports Config.K).respValid = true ∧
      (∀ v, s.respErr = some v → (t.ports Config.K).err = v) ∧
      (∀ v, s.respRtextLen = some v → (t.ports Config.K).rtextLen.toNat = v) ∧
      (∀ v, s.respRdataLen = some v → (t.ports Config.K).rdataLen.toNat = v) ∧
      (∀ v, s.respRval = some v → (t.ports Config.K).rval = v) ∧
      (∀ v, s.respRctr = some v → (t.ports Config.K).rctr = v) ∧
      (∀ k < Config.TXT_MAX Config.K, ∀ v, s.respRtextLane k = some v → (t.ports Config.K).rtext.getD k 0 = v) ∧
      (∀ k < Config.KEY_MAX Config.K, ∀ v, s.respRdataLane k = some v → (t.ports Config.K).rdata.getD k 0 = v)

/-- A run that has ended stays ended: without further requests CORE stays in IDLE, holds nothing and never answers. -/
def Obligations.EndedStaysEnded : Prop :=
  ∀ (n : Nat) (s : State), s.inv Config.K = true → s.ended = true →
    ∃ t, stepN n s = some t ∧ t.st = .idle ∧ t.cmd = none ∧ t.resp = none ∧ t.respValid = false ∧ t.ended = true

/-! ### Encoding -/

/-- Every well-formed operation, at every value of its operands and every capacity, is read back from its bytes. -/
def Obligations.DecodeEncode : Prop :=
  ∀ (K : Nat) (i : Instr), 4 ≤ K → i.wf K = true → decodeBytes K (encode K i) = .ok i

/-- No bit of a packed request is dropped: every word of `reqBits K` bits, 3512 at the default instance, is the packed word of
the request it stands for, which is well-formed; and a well-formed request is the one its packed word stands for. -/
def Obligations.PackedWordRoundTrip : Prop :=
  reqBits Config.K = 3512 ∧
  (∀ K w : Nat, 4 ≤ K → w < 2 ^ reqBits K → (Request.ofWord K w).toWord K = w ∧ (Request.ofWord K w).wf K = true) ∧
  (∀ (K : Nat) (q : Request), 4 ≤ K → q.wf K = true → Request.ofWord K (q.toWord K) = q)

/-- At the default instance bytes are refused exactly when their number is not 439. -/
def Obligations.DecodeRefuses : Prop :=
  ∀ bs : List Byte,
    (bs.length < 439 → decodeBytes Config.K bs = .error .tooShort) ∧
    (439 < bs.length → decodeBytes Config.K bs = .error .tooLong) ∧
    (bs.length = 439 → ∃ i, decodeBytes Config.K bs = .ok i ∧ i.wf Config.K = true)

/-- A few words written out from the encoding: the op field at bits 2..0, then digits, now, period, ctr. -/
def Obligations.SampleWords : Prop :=
  decodeTableWord 8 0b000 = some (.b32enc 0 []) ∧ decodeTableWord 8 0b001 = some (.b32dec 0 []) ∧
  decodeTableWord 8 0b010 = some (.hmac 0 [] 0) ∧ decodeTableWord 8 0b0110011 = some (.trunc 0 [] 6) ∧
  decodeTableWord 104 (4 + 59 * 2 ^ 7 + 30 * 2 ^ 71) = some (.tstep 59 30) ∧
  decodeTableWord 168 (5 + 8 * 2 ^ 3 + 1 * 2 ^ 103) = some (.hotp 0 [] 1 8) ∧
  decodeTableWord 192 (6 + 6 * 2 ^ 3 + 59 * 2 ^ 7 + 30 * 2 ^ 71 + 2 * 2 ^ 167 + 0x594D * 2 ^ 176)
    = some (.totp 2 [(0, 0x4D), (1, 0x59)] 59 30 6) ∧
  decodeTableWord 8 0b111 = some .reserved7

/-- The worked examples of the source document, the corrected known vector and the printed literal's true value. -/
def Obligations.WorkedExamples : Prop :=
  responseTo Config.K (reqTotp (bytesBE 0x47455a44474e425647593354514f4a5147455a44474e425647593354514f4a51 32) 59 30 8)
    = textResponse (bytesBE 0x3934323837303832 8) ∧
  responseTo Config.K (reqTotp (bytesBE 0x47455a44474e425647593354514f4a51 16) 59 30 8)
    = textResponse (bytesBE 0x3133323633343230 8) ∧
  responseTo Config.K (reqB32dec [0x31]) = errorResponse 1 ∧
  (∀ now : BitVec 64, responseTo Config.K (reqTotp [] now 30 6) = errorResponse 2) ∧
  responseTo Config.K (reqTrunc (bytesBE (0x2a <<< 128) 20) 6)
    = { textResponse [0x30, 0x30, 0x30, 0x30, 0x34, 0x32] with rval := some 42 } ∧
  responseTo Config.K (reqB32enc []) = textResponse []

/-! ### The host's defaults -/

/-- R157: the defaults are the host's: a caller that gives no period, digit count or length gets 30, 6 and 20, a given value is
kept, 0 too; CORE has no default: a `period` or `digits` of 0 means zero and is an error. -/
def Obligations.HostDefaults : Prop :=
  ∀ K, 4 ≤ K →
    (∀ (t : List Byte) (w : BitVec Config.NOW_W) (p : BitVec Config.PERIOD_W) (g : BitVec Config.DIGITS_W),
      hostTotp t w none none = reqTotp t w 30 6 ∧ hostTotp t w (some p) none = reqTotp t w p 6 ∧
      hostTotp t w none (some g) = reqTotp t w 30 g ∧ hostTotp t w (some p) (some g) = reqTotp t w p g) ∧
    (∀ (source : Option (Nat → Byte)) (n : Nat),
      hostGenSecret K source none = genSecret K source 20 ∧ hostGenSecret K source (some n) = genSecret K source n) ∧
    (∀ w : BitVec Config.NOW_W, responseTo K (.tstep w 0) = errorResponse 5) ∧
    (∀ d : Buffer, responseTo K (.trunc 20 d 0) = errorResponse 3) ∧
    (∀ (n : Nat) (d : Buffer) (c : BitVec Config.CTR_W), (responseTo K (.hotp n d c 0)).err ≠ 0) ∧
    (∀ (n : Nat) (d : Buffer) (w : BitVec Config.NOW_W) (p : BitVec Config.PERIOD_W) (g : BitVec Config.DIGITS_W),
      p = 0 ∨ g = 0 → (responseTo K (.totp n d w p g)).err ≠ 0)
end

