-- ==== Sys2Proof/Laws/Memory.lean ====
section
/-! SUPPORT. The laws of payload buffers: what a lane reads after a write, that every operation keeps the canonical form, and
that two canonical buffers with equal lanes are equal. -/

namespace Sys2Proof

theorem Buffer.wf_cons {cap a : Nat} {b : Byte} {t : Buffer} :
    Buffer.wf cap ((a, b) :: t) = true ↔
      a < cap ∧ b ≠ Buffer.unlisted ∧ (∀ c ∈ t, a < c.1) ∧ Buffer.wf cap t = true := by
  simp [Buffer.wf, and_assoc]

@[simp] theorem Buffer.wf_nil (cap : Nat) : Buffer.wf cap [] = true := rfl

theorem Buffer.wf_mono {cap cap' : Nat} (h : cap ≤ cap') {b : Buffer} (hb : Buffer.wf cap b = true) :
    Buffer.wf cap' b = true := by
  induction b with
  | nil => rfl
  | cons c t ih =>
    obtain ⟨h1, h2, h3, h4⟩ := Buffer.wf_cons.mp hb
    exact Buffer.wf_cons.mpr ⟨by omega, h2, h3, ih h4⟩

theorem Buffer.read_below {t : Buffer} {i : Nat} (h : ∀ c ∈ t, i < c.1) : Buffer.read t i = Buffer.unlisted := by
  induction t with
  | nil => rfl
  | cons c t ih =>
    have hc := h c (by simp)
    rw [Buffer.read, if_neg (by omega)]
    exact ih fun d hd => h d (by simp [hd])

theorem Buffer.read_above {cap : Nat} {b : Buffer} (hb : Buffer.wf cap b = true) {i : Nat} (hi : cap ≤ i) :
    Buffer.read b i = Buffer.unlisted := by
  induction b with
  | nil => rfl
  | cons c t ih =>
    obtain ⟨h1, -, -, h4⟩ := Buffer.wf_cons.mp hb
    rw [Buffer.read, if_neg (by omega)]
    exact ih h4

/-- A write leaves every other lane alone. -/
theorem Buffer.read_write_other (b : Buffer) {i j : Nat} (v : Byte) (h : j ≠ i) :
    Buffer.read (Buffer.write b i v) j = Buffer.read b j := by
  induction b with
  | nil =>
    rw [Buffer.write]
    split
    · rfl
    · simp [Buffer.read, Ne.symm h]
  | cons c t ih =>
    obtain ⟨a, x⟩ := c
    simp only [Buffer.write]
    split
    · split
      · rfl
      · rw [Buffer.read, if_neg (Ne.symm h)]
    · split
      · rename_i hia
        split <;> simp [Buffer.read, ← hia, Ne.symm h]
      · simp only [Buffer.read, ih]

/-- A lane reads back what was written to it. -/
theorem Buffer.read_write_same {cap : Nat} {b : Buffer} (hb : Buffer.wf cap b = true) (i : Nat) (v : Byte) :
    Buffer.read (Buffer.write b i v) i = v := by
  induction b with
  | nil =>
    rw [Buffer.write]
    split
    · rename_i hv; rw [hv]; rfl
    · simp [Buffer.read]
  | cons c t ih =>
    obtain ⟨a, x⟩ := c
    obtain ⟨-, -, h3, h4⟩ := Buffer.wf_cons.mp hb
    simp only [Buffer.write]
    split
    · rename_i hlt
      split
      · rename_i hv
        rw [hv]
        refine Buffer.read_below fun d hd => ?_
        rcases List.mem_cons.mp hd with rfl | hd
        · exact hlt
        · exact hlt.trans (h3 d hd)
      · simp [Buffer.read]
    · split
      · rename_i hia
        split
        · rename_i hv
          rw [hv]
          exact Buffer.read_below fun d hd => hia ▸ h3 d hd
        · simp [Buffer.read]
      · rename_i hne
        rw [Buffer.read, if_neg (fun h => hne h.symm)]
        exact ih h4

theorem Buffer.mem_write {b : Buffer} {i : Nat} {v : Byte} {c : Host.Cell} (h : c ∈ Buffer.write b i v) :
    c ∈ b ∨ c.1 = i := by
  induction b with
  | nil =>
    rw [Buffer.write] at h
    split at h <;> simp_all
  | cons d t ih =>
    obtain ⟨a, x⟩ := d
    simp only [Buffer.write] at h
    split at h
    · split at h
      · exact .inl h
      · rcases List.mem_cons.mp h with rfl | h
        · exact .inr rfl
        · exact .inl h
    · split at h
      · split at h
        · exact .inl (List.mem_cons_of_mem _ h)
        · rcases List.mem_cons.mp h with rfl | h
          · exact .inr rfl
          · exact .inl (List.mem_cons_of_mem _ h)
      · rcases List.mem_cons.mp h with rfl | h
        · exact .inl (by simp)
        · rcases ih h with h | h
          · exact .inl (List.mem_cons_of_mem _ h)
          · exact .inr h

/-- A write to a lane of the buffer keeps the canonical form. -/
theorem Buffer.wf_write {cap : Nat} {b : Buffer} (hb : Buffer.wf cap b = true) {i : Nat} (hi : i < cap) (v : Byte) :
    Buffer.wf cap (Buffer.write b i v) = true := by
  induction b with
  | nil =>
    rw [Buffer.write]
    split
    · rfl
    · rename_i hv
      exact Buffer.wf_cons.mpr ⟨hi, hv, by simp, rfl⟩
  | cons c t ih =>
    obtain ⟨a, x⟩ := c
    obtain ⟨h1, h2, h3, h4⟩ := Buffer.wf_cons.mp hb
    simp only [Buffer.write]
    split
    · rename_i hlt
      split
      · exact hb
      · rename_i hv
        refine Buffer.wf_cons.mpr ⟨hi, hv, fun d hd => ?_, hb⟩
        rcases List.mem_cons.mp hd with rfl | hd
        · exact hlt
        · exact hlt.trans (h3 d hd)
    · split
      · rename_i hia
        split
        · exact h4
        · rename_i hv
          exact Buffer.wf_cons.mpr ⟨hi, hv, fun d hd => hia ▸ h3 d hd, h4⟩
      · refine Buffer.wf_cons.mpr ⟨h1, h2, fun d hd => ?_, ih h4⟩
        rcases Buffer.mem_write hd with hd | hd
        · exact h3 d hd
        · omega

/-- Two canonical buffers whose lanes read alike are the same data. -/
theorem Buffer.ext {cap : Nat} {b c : Buffer} (hb : Buffer.wf cap b = true) (hc : Buffer.wf cap c = true)
    (h : ∀ i, Buffer.read b i = Buffer.read c i) : b = c := by
  induction b generalizing c with
  | nil =>
    cases c with
    | nil => rfl
    | cons d t =>
      obtain ⟨-, h2, -, -⟩ := Buffer.wf_cons.mp hc
      have := h d.1
      simp only [Buffer.read, ↓reduceIte] at this
      exact absurd this.symm h2
  | cons d t ih =>
    obtain ⟨-, h2, h3, h4⟩ := Buffer.wf_cons.mp hb
    cases c with
    | nil =>
      have := h d.1
      simp only [Buffer.read, ↓reduceIte] at this
      exact absurd this h2
    | cons e u =>
      obtain ⟨-, k2, k3, k4⟩ := Buffer.wf_cons.mp hc
      have hde : d.1 = e.1 := by
        rcases Nat.lt_trichotomy d.1 e.1 with hlt | heq | hgt
        · have := h d.1
          rw [Buffer.read, if_pos rfl, Buffer.read_below (t := e :: u)] at this
          · exact absurd this h2
          · intro f hf
            rcases List.mem_cons.mp hf with rfl | hf
            · exact hlt
            · exact hlt.trans (k3 f hf)
        · exact heq
        · have := h e.1
          rw [Buffer.read_below (t := d :: t), Buffer.read, if_pos rfl] at this
          · exact absurd this.symm k2
          · intro f hf
            rcases List.mem_cons.mp hf with rfl | hf
            · exact hgt
            · exact hgt.trans (h3 f hf)
      have hb2 : d.2 = e.2 := by
        have := h d.1
        rwa [Buffer.read, if_pos rfl, Buffer.read, if_pos hde.symm] at this
      have htail : t = u := by
        refine ih h4 k4 fun i => ?_
        by_cases hi : d.1 = i
        · rw [Buffer.read_below (t := t) fun f hf => hi ▸ h3 f hf,
            Buffer.read_below (t := u) fun f hf => hi ▸ hde ▸ k3 f hf]
        · have := h i
          rwa [Buffer.read, if_neg hi, Buffer.read, if_neg (hde ▸ hi)] at this
      rw [htail, Prod.ext hde hb2]

/-- MemWrite keeps the canonical form. -/
theorem wf_memWrite {cap : Nat} {v : List Byte} {b : Buffer} (hb : Buffer.wf cap b = true) {i : Nat}
    (hi : i + v.length ≤ cap) : Buffer.wf cap (memWrite b i v) = true := by
  induction v generalizing b i with
  | nil => exact hb
  | cons x t ih =>
    rw [List.length_cons] at hi
    exact ih (Buffer.wf_write hb (by omega) x) (by omega)

/-- What a lane reads after MemWrite: the byte written there, or what it read before. -/
theorem read_memWrite {cap : Nat} {v : List Byte} {b : Buffer} (hb : Buffer.wf cap b = true) {i : Nat}
    (hi : i + v.length ≤ cap) (j : Nat) :
    Buffer.read (memWrite b i v) j = if i ≤ j ∧ j < i + v.length then v.getD (j - i) 0 else Buffer.read b j := by
  induction v generalizing b i with
  | nil => simp [memWrite]
  | cons x t ih =>
    rw [List.length_cons] at hi ⊢
    rw [memWrite, ih (Buffer.wf_write hb (by omega) x) (by omega)]
    rcases Nat.lt_trichotomy j i with hlt | rfl | hgt
    · rw [if_neg (by omega), if_neg (by omega), Buffer.read_write_other _ _ (by omega)]
    · rw [if_neg (by omega), if_pos (by omega), Buffer.read_write_same hb]
      simp
    · by_cases hj : j < i + (t.length + 1)
      · rw [if_pos (by omega), if_pos (by omega), show j - i = (j - (i + 1)) + 1 by omega]
        simp
      · rw [if_neg (by omega), if_neg (by omega), Buffer.read_write_other _ _ (by omega)]

@[simp] theorem length_memRead (b : Buffer) (i n : Nat) : (memRead b i n).length = n := by simp [memRead]

/-- MemRead gives back what MemWrite wrote. -/
theorem memRead_memWrite {cap : Nat} {v : List Byte} {b : Buffer} (hb : Buffer.wf cap b = true) {i : Nat}
    (hi : i + v.length ≤ cap) : memRead (memWrite b i v) i v.length = v := by
  refine List.ext_getElem (by simp) fun k hk hk' => ?_
  simp only [memRead, List.getElem_map, List.getElem_range]
  rw [read_memWrite hb hi, if_pos (by omega), Nat.add_sub_cancel_left]
  simp [hk']

/-- The bytes written into an empty buffer: its lanes below their number, and only those, may be listed. -/
theorem wf_memWrite_nil (v : List Byte) : Buffer.wf v.length (memWrite [] 0 v) = true :=
  wf_memWrite rfl (by omega)

theorem memRead_memWrite_nil (v : List Byte) : memRead (memWrite [] 0 v) 0 v.length = v :=
  memRead_memWrite (cap := v.length) rfl (by omega)

theorem Buffer.ofVector_ge {n i w : Nat} {c : Host.Cell} (h : c ∈ Buffer.ofVector n i w) : i ≤ c.1 ∧ c.1 < i + n := by
  induction n generalizing i w with
  | zero => simp [Buffer.ofVector] at h
  | succ n ih =>
    simp only [Buffer.ofVector] at h
    split at h
    · simp at h
    · split at h
      · have := ih h; omega
      · rcases List.mem_cons.mp h with rfl | h
        · simp
        · have := ih h; omega

/-- A port vector gives a canonical buffer. -/
theorem Buffer.wf_ofVector (n i w : Nat) : Buffer.wf (i + n) (Buffer.ofVector n i w) = true := by
  induction n generalizing i w with
  | zero => rfl
  | succ n ih =>
    simp only [Buffer.ofVector]
    have h1 : Buffer.wf (i + (n + 1)) (Buffer.ofVector n (i + 1) (w / 256)) = true := by
      have := ih (i + 1) (w / 256)
      rwa [show i + 1 + n = i + (n + 1) by omega] at this
    split
    · rfl
    · split
      · exact h1
      · rename_i hv
        refine Buffer.wf_cons.mpr ⟨by omega, hv, fun c hc => ?_, h1⟩
        have := Buffer.ofVector_ge hc
        omega

/-- Lane `i + k` of a port vector's buffer holds bits `8*k+7 : 8*k`. -/
theorem Buffer.read_ofVector {n i w k : Nat} (hk : k < n) :
    Buffer.read (Buffer.ofVector n i w) (i + k) = BitVec.ofNat 8 (w / 256 ^ k) := by
  induction n generalizing i w k with
  | zero => omega
  | succ n ih =>
    simp only [Buffer.ofVector]
    split
    · rename_i hw
      simp [hw, Buffer.read, Buffer.unlisted]
    · split
      · rename_i hv
        cases k with
        | zero =>
          rw [Nat.add_zero, Buffer.read_below fun c hc => by have := Buffer.ofVector_ge hc; omega, ← hv]
          simp
        | succ k =>
          rw [show i + (k + 1) = i + 1 + k by omega, ih (by omega), Nat.div_div_eq_div_mul, Nat.pow_succ, Nat.mul_comm]
      · cases k with
        | zero => simp [Buffer.read]
        | succ k =>
          rw [Buffer.read, if_neg (by simp), show i + (k + 1) = i + 1 + k by omega, ih (by omega),
            Nat.div_div_eq_div_mul, Nat.pow_succ, Nat.mul_comm]

/-! ### Vectors of lanes -/

@[simp] theorem length_natToLanes (n w : Nat) : (natToLanes n w).length = n := by
  induction n generalizing w with
  | zero => rfl
  | succ n ih => simp [natToLanes, ih]

theorem lanesToNat_lt (b : List Byte) : lanesToNat b < 256 ^ b.length := by
  induction b with
  | nil => simp [lanesToNat]
  | cons x t ih =>
    have := x.isLt
    rw [lanesToNat, List.length_cons, Nat.pow_succ]
    omega

theorem lanesToNat_natToLanes {n w : Nat} (h : w < 256 ^ n) : lanesToNat (natToLanes n w) = w := by
  induction n generalizing w with
  | zero => simp at h; simp [natToLanes, lanesToNat, h]
  | succ n ih =>
    rw [natToLanes, lanesToNat, ih (by rw [Nat.pow_succ] at h; omega), BitVec.toNat_ofNat]
    omega

theorem lanesToNat_div {b : List Byte} {k : Nat} (hk : k < b.length) :
    BitVec.ofNat 8 (lanesToNat b / 256 ^ k) = b[k] := by
  induction b generalizing k with
  | nil => simp at hk
  | cons x t ih =>
    have hx := x.isLt
    cases k with
    | zero =>
      apply BitVec.eq_of_toNat_eq
      simp [lanesToNat]
      omega
    | succ k =>
      simp only [List.length_cons] at hk
      rw [lanesToNat, Nat.pow_succ, Nat.mul_comm (256 ^ k), ← Nat.div_div_eq_div_mul,
        show (x.toNat + 256 * lanesToNat t) / 256 = lanesToNat t by omega, ih (by omega)]
      simp

/-- A canonical buffer is the one its own lanes' port vector stands for. -/
theorem Buffer.ofVector_lanesToNat {cap : Nat} {b : Buffer} (hb : Buffer.wf cap b = true) :
    Buffer.ofVector cap 0 (lanesToNat (memRead b 0 cap)) = b := by
  have hw := Buffer.wf_ofVector cap 0 (lanesToNat (memRead b 0 cap))
  rw [Nat.zero_add] at hw
  refine Buffer.ext hw hb fun i => ?_
  by_cases hi : i < cap
  · have := Buffer.read_ofVector (i := 0) (w := lanesToNat (memRead b 0 cap)) hi
    rw [Nat.zero_add] at this
    rw [this, lanesToNat_div (by simpa using hi)]
    simp [memRead]
  · rw [Buffer.read_above hw (by omega), Buffer.read_above hb (by omega)]

end Sys2Proof
end

