-- ==== Sys2Proof/Laws/PerInstr.lean ====
section
/-! SUPPORT. Laws stated per operation, over its syntax. Family RequestForm: the request an operation is written as (spec/30_encoding.md
R75) names that operation again, and is well-formed when the operation is. -/

namespace Sys2Proof.Laws.RequestForm

/-- The request names the operation, and at every capacity it is well-formed exactly when the operation is. -/
def Statement (i : Instr) : Prop := decode i.toRequest = i ∧ ∀ K, i.toRequest.wf K = i.wf K

/-- The payloads an operation does not read, empty in its request, are well-formed. -/
theorem blank_wf (K : Nat) : textWf K 0 [] = true ∧ dataWf K 0 [] = true := by simp [textWf, dataWf]


theorem b32enc (n : Nat) (d : Buffer) : Statement (.b32enc n d) :=
  ⟨rfl, fun K => by simp [Instr.toRequest, Request.wf, Instr.wf, Request.blank, blank_wf]⟩
theorem b32dec (n : Nat) (t : Buffer) : Statement (.b32dec n t) :=
  ⟨rfl, fun K => by simp [Instr.toRequest, Request.wf, Instr.wf, Request.blank, blank_wf]⟩
theorem hmac (n : Nat) (d : Buffer) (c : BitVec Config.CTR_W) : Statement (.hmac n d c) :=
  ⟨rfl, fun K => by simp [Instr.toRequest, Request.wf, Instr.wf, Request.blank, blank_wf]⟩
theorem trunc (n : Nat) (d : Buffer) (g : BitVec Config.DIGITS_W) : Statement (.trunc n d g) :=
  ⟨rfl, fun K => by simp [Instr.toRequest, Request.wf, Instr.wf, Request.blank, blank_wf]⟩
theorem tstep (w : BitVec Config.NOW_W) (p : BitVec Config.PERIOD_W) : Statement (.tstep w p) :=
  ⟨rfl, fun K => by simp [Instr.toRequest, Request.wf, Instr.wf, Request.blank, blank_wf]⟩
theorem hotp (n : Nat) (d : Buffer) (c : BitVec Config.CTR_W) (g : BitVec Config.DIGITS_W) :
    Statement (.hotp n d c g) :=
  ⟨rfl, fun K => by simp [Instr.toRequest, Request.wf, Instr.wf, Request.blank, blank_wf]⟩
theorem totp (n : Nat) (t : Buffer) (w : BitVec Config.NOW_W) (p : BitVec Config.PERIOD_W)
    (g : BitVec Config.DIGITS_W) : Statement (.totp n t w p g) :=
  ⟨rfl, fun K => by simp [Instr.toRequest, Request.wf, Instr.wf, Request.blank, blank_wf]⟩
theorem reserved7 : Statement .reserved7 :=
  ⟨rfl, fun K => by simp [Instr.toRequest, Request.wf, Instr.wf, Request.blank, blank_wf]⟩

end Sys2Proof.Laws.RequestForm
end

