-- ==== Sys2Proof/Laws/State.lean ====
section
/-! SUPPORT. The fields of the state after each named operation: one lemma per field per operation. -/

namespace Sys2Proof.Machine

@[simp] theorem State.tick_st (s : State) : (s.tick).st = s.st := rfl
@[simp] theorem State.tick_cmd (s : State) : (s.tick).cmd = s.cmd := rfl
@[simp] theorem State.tick_resp (s : State) : (s.tick).resp = s.resp := rfl
@[simp] theorem State.tick_left (s : State) : (s.tick).left = s.left := rfl
@[simp] theorem State.tick_inputs (s : State) : (s.tick).inputs = s.inputs.tail := rfl
@[simp] theorem State.tick_edge (s : State) : (s.tick).edge = s.edge + 1 := rfl

@[simp] theorem State.hold_st (s : State) : (s.hold).st = s.st := rfl
@[simp] theorem State.hold_cmd (s : State) : (s.hold).cmd = s.cmd := rfl
@[simp] theorem State.hold_resp (s : State) : (s.hold).resp = s.resp := rfl
@[simp] theorem State.hold_left (s : State) : (s.hold).left = s.left := rfl
@[simp] theorem State.hold_inputs (s : State) : (s.hold).inputs = s.inputs.tail := rfl
@[simp] theorem State.hold_edge (s : State) : (s.hold).edge = s.edge + 1 := rfl

@[simp] theorem State.doReset_st (s : State) : (s.doReset).st = .idle := rfl
@[simp] theorem State.doReset_cmd (s : State) : (s.doReset).cmd = none := rfl
@[simp] theorem State.doReset_resp (s : State) : (s.doReset).resp = none := rfl
@[simp] theorem State.doReset_left (s : State) : (s.doReset).left = 0 := rfl
@[simp] theorem State.doReset_inputs (s : State) : (s.doReset).inputs = s.inputs.tail := rfl
@[simp] theorem State.doReset_edge (s : State) : (s.doReset).edge = s.edge + 1 := rfl

@[simp] theorem State.retire_st (s : State) : (s.retire).st = .idle := rfl
@[simp] theorem State.retire_cmd (s : State) : (s.retire).cmd = none := rfl
@[simp] theorem State.retire_resp (s : State) : (s.retire).resp = none := rfl
@[simp] theorem State.retire_left (s : State) : (s.retire).left = 0 := rfl
@[simp] theorem State.retire_inputs (s : State) : (s.retire).inputs = s.inputs.tail := rfl
@[simp] theorem State.retire_edge (s : State) : (s.retire).edge = s.edge + 1 := rfl

@[simp] theorem State.wait_st (s : State) : (s.wait).st = s.st := rfl
@[simp] theorem State.wait_cmd (s : State) : (s.wait).cmd = s.cmd := rfl
@[simp] theorem State.wait_resp (s : State) : (s.wait).resp = s.resp := rfl
@[simp] theorem State.wait_left (s : State) : (s.wait).left = s.left - 1 := rfl
@[simp] theorem State.wait_inputs (s : State) : (s.wait).inputs = s.inputs.tail := rfl
@[simp] theorem State.wait_edge (s : State) : (s.wait).edge = s.edge + 1 := rfl

@[simp] theorem State.accept_st (K : Nat) (s : State) (q : Request) : (s.accept K q).st = .busy := rfl
@[simp] theorem State.accept_cmd (K : Nat) (s : State) (q : Request) : (s.accept K q).cmd = some q := rfl
@[simp] theorem State.accept_resp (K : Nat) (s : State) (q : Request) : (s.accept K q).resp = none := rfl
@[simp] theorem State.accept_left (K : Nat) (s : State) (q : Request) : (s.accept K q).left = Config.latency K (q.toWord K) := rfl
@[simp] theorem State.accept_inputs (K : Nat) (s : State) (q : Request) : (s.accept K q).inputs = s.inputs.tail := rfl
@[simp] theorem State.accept_edge (K : Nat) (s : State) (q : Request) : (s.accept K q).edge = s.edge + 1 := rfl

@[simp] theorem State.complete_st (s : State) (r : Response) : (s.complete r).st = .done := rfl
@[simp] theorem State.complete_cmd (s : State) (r : Response) : (s.complete r).cmd = none := rfl
@[simp] theorem State.complete_resp (s : State) (r : Response) : (s.complete r).resp = some r := rfl
@[simp] theorem State.complete_left (s : State) (r : Response) : (s.complete r).left = 0 := rfl
@[simp] theorem State.complete_inputs (s : State) (r : Response) : (s.complete r).inputs = s.inputs.tail := rfl
@[simp] theorem State.complete_edge (s : State) (r : Response) : (s.complete r).edge = s.edge + 1 := rfl

@[simp] theorem State.latched_st (s : State) (q : Request) : (s.latched q).st = .busy := rfl
@[simp] theorem State.latched_cmd (s : State) (q : Request) : (s.latched q).cmd = some q := rfl
@[simp] theorem State.latched_resp (s : State) (q : Request) : (s.latched q).resp = none := rfl
@[simp] theorem State.latched_left (s : State) (q : Request) : (s.latched q).left = 1 := rfl
@[simp] theorem State.latched_edge (s : State) (q : Request) : (s.latched q).edge = s.edge := rfl

/-! ### Response records -/

@[simp] theorem Response.bare_err (c : BitVec 3) : (Response.bare c).err = c := rfl
@[simp] theorem Response.bare_rtextLen (c : BitVec 3) : (Response.bare c).rtextLen = none := rfl
@[simp] theorem Response.bare_rtext (c : BitVec 3) : (Response.bare c).rtext = none := rfl
@[simp] theorem Response.bare_rdataLen (c : BitVec 3) : (Response.bare c).rdataLen = none := rfl
@[simp] theorem Response.bare_rdata (c : BitVec 3) : (Response.bare c).rdata = none := rfl
@[simp] theorem Response.bare_rval (c : BitVec 3) : (Response.bare c).rval = none := rfl
@[simp] theorem Response.bare_rctr (c : BitVec 3) : (Response.bare c).rctr = none := rfl

@[simp] theorem Response.ofError_err (e : Err) : (Response.ofError e).err = e.code := rfl
@[simp] theorem Response.ofError_rtextLen (e : Err) : (Response.ofError e).rtextLen = none := rfl
@[simp] theorem Response.ofError_rtext (e : Err) : (Response.ofError e).rtext = none := rfl
@[simp] theorem Response.ofError_rdataLen (e : Err) : (Response.ofError e).rdataLen = none := rfl
@[simp] theorem Response.ofError_rdata (e : Err) : (Response.ofError e).rdata = none := rfl
@[simp] theorem Response.ofError_rval (e : Err) : (Response.ofError e).rval = none := rfl
@[simp] theorem Response.ofError_rctr (e : Err) : (Response.ofError e).rctr = none := rfl

@[simp] theorem Response.ofText_err (t : List Byte) : (Response.ofText t).err = errOk := rfl
@[simp] theorem Response.ofText_rtextLen (t : List Byte) :
    (Response.ofText t).rtextLen = some t.length := rfl
@[simp] theorem Response.ofText_rtext (t : List Byte) : (Response.ofText t).rtext = some (memWrite [] 0 t) := rfl
@[simp] theorem Response.ofText_rdataLen (t : List Byte) : (Response.ofText t).rdataLen = none := rfl
@[simp] theorem Response.ofText_rdata (t : List Byte) : (Response.ofText t).rdata = none := rfl
@[simp] theorem Response.ofText_rval (t : List Byte) : (Response.ofText t).rval = none := rfl
@[simp] theorem Response.ofText_rctr (t : List Byte) : (Response.ofText t).rctr = none := rfl

@[simp] theorem Response.ofData_err (d : List Byte) : (Response.ofData d).err = errOk := rfl
@[simp] theorem Response.ofData_rtextLen (d : List Byte) : (Response.ofData d).rtextLen = none := rfl
@[simp] theorem Response.ofData_rtext (d : List Byte) : (Response.ofData d).rtext = none := rfl
@[simp] theorem Response.ofData_rdataLen (d : List Byte) :
    (Response.ofData d).rdataLen = some d.length := rfl
@[simp] theorem Response.ofData_rdata (d : List Byte) : (Response.ofData d).rdata = some (memWrite [] 0 d) := rfl
@[simp] theorem Response.ofData_rval (d : List Byte) : (Response.ofData d).rval = none := rfl
@[simp] theorem Response.ofData_rctr (d : List Byte) : (Response.ofData d).rctr = none := rfl

@[simp] theorem Response.ofTrunc_err (p : Nat) (t : List Byte) : (Response.ofTrunc p t).err = errOk := rfl
@[simp] theorem Response.ofTrunc_rtextLen (p : Nat) (t : List Byte) :
    (Response.ofTrunc p t).rtextLen = some t.length := rfl
@[simp] theorem Response.ofTrunc_rtext (p : Nat) (t : List Byte) :
    (Response.ofTrunc p t).rtext = some (memWrite [] 0 t) := rfl
@[simp] theorem Response.ofTrunc_rdataLen (p : Nat) (t : List Byte) : (Response.ofTrunc p t).rdataLen = none := rfl
@[simp] theorem Response.ofTrunc_rdata (p : Nat) (t : List Byte) : (Response.ofTrunc p t).rdata = none := rfl
@[simp] theorem Response.ofTrunc_rval (p : Nat) (t : List Byte) :
    (Response.ofTrunc p t).rval = some (BitVec.ofNat 31 p) := rfl
@[simp] theorem Response.ofTrunc_rctr (p : Nat) (t : List Byte) : (Response.ofTrunc p t).rctr = none := rfl

@[simp] theorem Response.ofCounter_err (c : Nat) : (Response.ofCounter c).err = errOk := rfl
@[simp] theorem Response.ofCounter_rtextLen (c : Nat) : (Response.ofCounter c).rtextLen = none := rfl
@[simp] theorem Response.ofCounter_rtext (c : Nat) : (Response.ofCounter c).rtext = none := rfl
@[simp] theorem Response.ofCounter_rdataLen (c : Nat) : (Response.ofCounter c).rdataLen = none := rfl
@[simp] theorem Response.ofCounter_rdata (c : Nat) : (Response.ofCounter c).rdata = none := rfl
@[simp] theorem Response.ofCounter_rval (c : Nat) : (Response.ofCounter c).rval = none := rfl
@[simp] theorem Response.ofCounter_rctr (c : Nat) :
    (Response.ofCounter c).rctr = some (BitVec.ofNat Config.CTR_W c) := rfl

/-! ### Ending an operation -/

@[simp] theorem finish_ok (r : Response) (s : State) : finish (.ok r) s = .next (s.complete r) := rfl
@[simp] theorem finish_error (e : Err) (s : State) : finish (.error e) s = .next (s.complete (Response.ofError e)) := rfl
@[simp] theorem respond_ok (r : Response) : respond (.ok r) = r := rfl
@[simp] theorem respond_error (e : Err) : respond (.error e) = Response.ofError e := rfl

/-- What raising an error does: it always completes, with the error's code and nothing else. -/
@[simp] theorem raiseError_eq (e : Err) (s : State) : raiseError e s = .next (s.complete (Response.ofError e)) := rfl

/-- What `finish` can do: it always completes, with the response its argument stands for. -/
theorem finish_eq (r : Except Err Response) (s : State) : finish r s = .next (s.complete (respond r)) := by
  cases r <;> rfl

end Sys2Proof.Machine
end

