-- ==== Sys2Proof/Laws/Step.lean ====
section
/-! SUPPORT. What one step can do, said once: every operation completes with the response `Exec` gives, and a step is one of seven
kinds of clock edge. -/

namespace Sys2Proof.Machine

/-- R64: at every capacity every operation completes, in every state, with its response. -/
theorem execFor_eq (K : Nat) (i : Instr) (s : State) :
    execFor K i s = .next (s.complete (respond (opResult K i))) := finish_eq _ _

/-- R7: `exec` is the default instance. -/
theorem exec_eq_execFor (i : Instr) (s : State) : exec i s = execFor Config.K i s := by
  cases i <;> rfl

theorem exec_eq (i : Instr) (s : State) : exec i s = .next (s.complete (respond (opResult Config.K i))) :=
  (exec_eq_execFor i s).trans (execFor_eq _ i s)

/-- R7: `step` is the default instance. -/
theorem step_eq_stepFor (s : State) : step s = stepFor Config.K s := by
  have : exec = execFor Config.K := funext fun i => funext fun s => exec_eq_execFor i s
  rw [step, stepFor, this]

/-! ### The step in each phase -/

section
variable {K : Nat} {s : State}

theorem stepFor_rst (h : s.edgeIn.rst = true) : stepFor K s = .next s.doReset := by
  simp [stepFor, State.edgeStep, State.completing, State.otherEdge, h]

theorem stepFor_idle (h : s.edgeIn.rst = false) (hs : s.st = .idle) :
    stepFor K s = .next (if s.edgeIn.reqValid then s.accept K s.edgeIn.req else s.hold) := by
  simp only [stepFor, State.edgeStep, State.completing, State.otherEdge, h, hs]
  split <;> rfl

theorem stepFor_wait (h : s.edgeIn.rst = false) (hs : s.st = .busy) (hl : 1 < s.left) :
    stepFor K s = .next s.wait := by
  simp [stepFor, State.edgeStep, State.completing, State.otherEdge, h, hs, hl]

theorem stepFor_complete {q : Request} (h : s.edgeIn.rst = false) (hs : s.st = .busy) (hl : s.left ≤ 1)
    (hq : s.cmd = some q) : stepFor K s = execFor K (decode q) s := by
  simp [stepFor, State.edgeStep, State.completing, h, hs, Nat.not_lt.mpr hl, hq]

theorem stepFor_noCommand (h : s.edgeIn.rst = false) (hs : s.st = .busy) (hl : s.left ≤ 1) (hq : s.cmd = none) :
    stepFor K s = .fault .busyWithoutCommand := by
  simp [stepFor, State.edgeStep, State.completing, State.otherEdge, h, hs, Nat.not_lt.mpr hl, hq]

theorem stepFor_done (h : s.edgeIn.rst = false) (hs : s.st = .done) :
    stepFor K s = .next (if s.edgeIn.respReady then s.retire else s.hold) := by
  simp only [stepFor, State.edgeStep, State.completing, State.otherEdge, h, hs]
  split <;> rfl

/-- Everything a step that answers a next state can be, at every capacity. -/
theorem stepFor_cases {t : State} (h : stepFor K s = .next t) :
    (s.edgeIn.rst = true ∧ t = s.doReset) ∨
    (s.edgeIn.rst = false ∧ s.st = .idle ∧ s.edgeIn.reqValid = true ∧ t = s.accept K s.edgeIn.req) ∨
    (s.edgeIn.rst = false ∧ s.st = .idle ∧ s.edgeIn.reqValid = false ∧ t = s.hold) ∨
    (s.edgeIn.rst = false ∧ s.st = .busy ∧ 1 < s.left ∧ t = s.wait) ∨
    (s.edgeIn.rst = false ∧ s.st = .busy ∧ s.left ≤ 1 ∧ ∃ q, s.cmd = some q ∧ t = s.complete (execRequest K q)) ∨
    (s.edgeIn.rst = false ∧ s.st = .done ∧ s.edgeIn.respReady = true ∧ t = s.retire) ∨
    (s.edgeIn.rst = false ∧ s.st = .done ∧ s.edgeIn.respReady = false ∧ t = s.hold) := by
  cases hr : s.edgeIn.rst with
  | true => rw [stepFor_rst hr] at h; cases h; exact .inl ⟨rfl, rfl⟩
  | false =>
    refine .inr ?_
    cases hs : s.st with
    | idle =>
      rw [stepFor_idle hr hs] at h
      cases hv : s.edgeIn.reqValid <;> simp only [hv] at h <;> cases h <;> simp
    | busy =>
      by_cases hl : 1 < s.left
      · rw [stepFor_wait hr hs hl] at h; cases h; simp [hl]
      · cases hq : s.cmd with
        | none => rw [stepFor_noCommand hr hs (by omega) hq] at h; cases h
        | some q =>
          rw [stepFor_complete hr hs (by omega) hq, execFor_eq] at h
          cases h
          simp [execRequest]; omega
    | done =>
      rw [stepFor_done hr hs] at h
      cases hv : s.edgeIn.respReady <;> simp only [hv] at h <;> cases h <;> simp

/-! ### The same of `step` -/

theorem step_rst (h : s.edgeIn.rst = true) : step s = .next s.doReset :=
  (step_eq_stepFor s).trans (stepFor_rst h)

theorem step_idle (h : s.edgeIn.rst = false) (hs : s.st = .idle) :
    step s = .next (if s.edgeIn.reqValid then s.accept Config.K s.edgeIn.req else s.hold) :=
  (step_eq_stepFor s).trans (stepFor_idle h hs)

theorem step_wait (h : s.edgeIn.rst = false) (hs : s.st = .busy) (hl : 1 < s.left) : step s = .next s.wait :=
  (step_eq_stepFor s).trans (stepFor_wait h hs hl)

theorem step_complete {q : Request} (h : s.edgeIn.rst = false) (hs : s.st = .busy) (hl : s.left ≤ 1)
    (hq : s.cmd = some q) : step s = exec (decode q) s :=
  ((step_eq_stepFor s).trans (stepFor_complete h hs hl hq)).trans (exec_eq_execFor _ s).symm

theorem step_noCommand (h : s.edgeIn.rst = false) (hs : s.st = .busy) (hl : s.left ≤ 1) (hq : s.cmd = none) :
    step s = .fault .busyWithoutCommand :=
  (step_eq_stepFor s).trans (stepFor_noCommand h hs hl hq)

theorem step_done (h : s.edgeIn.rst = false) (hs : s.st = .done) :
    step s = .next (if s.edgeIn.respReady then s.retire else s.hold) :=
  (step_eq_stepFor s).trans (stepFor_done h hs)

theorem step_cases {t : State} (h : step s = .next t) :
    (s.edgeIn.rst = true ∧ t = s.doReset) ∨
    (s.edgeIn.rst = false ∧ s.st = .idle ∧ s.edgeIn.reqValid = true ∧ t = s.accept Config.K s.edgeIn.req) ∨
    (s.edgeIn.rst = false ∧ s.st = .idle ∧ s.edgeIn.reqValid = false ∧ t = s.hold) ∨
    (s.edgeIn.rst = false ∧ s.st = .busy ∧ 1 < s.left ∧ t = s.wait) ∨
    (s.edgeIn.rst = false ∧ s.st = .busy ∧ s.left ≤ 1 ∧
      ∃ q, s.cmd = some q ∧ t = s.complete (execRequest Config.K q)) ∨
    (s.edgeIn.rst = false ∧ s.st = .done ∧ s.edgeIn.respReady = true ∧ t = s.retire) ∨
    (s.edgeIn.rst = false ∧ s.st = .done ∧ s.edgeIn.respReady = false ∧ t = s.hold) :=
  stepFor_cases ((step_eq_stepFor s).symm.trans h)

end

end Sys2Proof.Machine
end

