-- ==== Sys2Proof/Laws/Units.lean ====
section
/-! SUPPORT. What the units put out: the lengths of their results, and that every operation ends with a sound response. -/

namespace Sys2Proof.Machine

/-! ### Lengths -/

@[simp] theorem length_bytesBE (v n : Nat) : (bytesBE v n).length = n := by simp [bytesBE]
@[simp] theorem length_counterBlock (c : Nat) : (counterBlock c).length = 8 := by simp [counterBlock]
@[simp] theorem length_decText (v n : Nat) : (decText v n).length = n := by simp [decText]
@[simp] theorem length_otpText (p n : Nat) : (otpText p n).length = n := by simp [otpText]
@[simp] theorem length_sha1 (m : List Byte) : (sha1 m).length = 20 := by simp [sha1, sha1Digest]
@[simp] theorem length_hmacSha1 (key msg : List Byte) : (hmacSha1 key msg).length = 20 := by simp [hmacSha1]

theorem length_decodeLoop (vs : List Nat) {acc nbits : Nat} (h : nbits < 8) :
    (decodeLoop vs acc nbits).length = (nbits + 5 * vs.length) / 8 := by
  induction vs generalizing acc nbits with
  | nil => simp [decodeLoop]; omega
  | cons v vs ih =>
    simp only [decodeLoop, List.length_cons]
    split
    · rw [List.length_cons, ih (by omega)]; omega
    · rw [ih (by omega)]; omega

theorem length_filterMap_b32Index {s : List Byte} (h : s.any (fun c => (b32Index c).isNone) = false) :
    (s.filterMap b32Index).length = s.length := by
  induction s with
  | nil => rfl
  | cons c t ih =>
    simp only [List.any_cons, Bool.or_eq_false_iff] at h
    obtain ⟨v, hv⟩ : ∃ v, b32Index c = some v := by
      cases hc : b32Index c with
      | none => simp [hc] at h
      | some v => exact ⟨v, rfl⟩
    simp [hv, ih h.2]

theorem length_foldStrip_le (t : List Byte) : (foldStrip t).length ≤ t.length := by
  rw [foldStrip, stripPad, List.length_reverse]
  refine (List.Sublist.length_le (List.dropWhile_sublist _)).trans ?_
  simp

/-- What B32Decode can do: refuse a text with a character outside the alphabet, or put out `floor(5*n/8)` bytes. -/
theorem b32Decode_cases (t : List Byte) :
    (b32Decode t = .error .invalidEncoding ∧ (foldStrip t).any (fun c => (b32Index c).isNone) = true) ∨
    (∃ r, b32Decode t = .ok r ∧ (foldStrip t).any (fun c => (b32Index c).isNone) = false ∧
      r.length = 5 * (foldStrip t).length / 8) := by
  by_cases h : (foldStrip t).any (fun c => (b32Index c).isNone) = true
  · exact .inl ⟨by simp only [b32Decode, h, if_true], h⟩
  · rw [Bool.not_eq_true] at h
    refine .inr ⟨decodeLoop ((foldStrip t).filterMap b32Index) 0 0, by simp [b32Decode, h], h, ?_⟩
    rw [length_decodeLoop _ (by omega), length_filterMap_b32Index h, Nat.zero_add]

theorem encodeDrain_bits {fuel acc nbits : Nat} (h : nbits ≤ fuel) :
    (encodeDrain fuel acc nbits).1.length = nbits / 5 ∧ (encodeDrain fuel acc nbits).2.2 = nbits % 5 := by
  induction fuel generalizing acc nbits with
  | zero => simp [encodeDrain, Nat.le_zero.mp h]
  | succ fuel ih =>
    simp only [encodeDrain]
    split
    · have := ih (acc := acc &&& (1 <<< (nbits - 5) - 1)) (nbits := nbits - 5) (by omega)
      simp only [List.length_cons, this]
      omega
    · simp; omega

theorem length_encodeLoop (b : List Byte) {acc nbits : Nat} (h : nbits < 5) :
    (encodeLoop b acc nbits).length = (nbits + 8 * b.length + 4) / 5 := by
  induction b generalizing acc nbits with
  | nil =>
    rw [encodeLoop]
    split <;> simp <;> omega
  | cons x t ih =>
    have := encodeDrain_bits (acc := (acc <<< 8) ||| x.toNat) (Nat.le_refl (nbits + 8))
    simp only [encodeLoop, List.length_append, this, List.length_cons]
    rw [ih (by omega)]
    omega

theorem length_padTo8 (l : List Byte) : (padTo8 l).length = 8 * ((l.length + 7) / 8) := by
  simp [padTo8]; omega

theorem length_b32Encode (b : List Byte) : (b32Encode b).length = 8 * ((b.length + 4) / 5) := by
  rw [b32Encode, length_padTo8, b32Chars, length_encodeLoop _ (by omega)]
  omega

/-! ### What the operand forms can do -/

theorem textOperand_cases (K len : Nat) (text : Buffer) :
    (Config.TXT_MAX K < len ∧ textOperand K len text = .error .badLength) ∨
    (len ≤ Config.TXT_MAX K ∧ textOperand K len text = .ok (memRead text 0 len)) := by
  unfold textOperand
  split
  · exact .inl ⟨‹_›, rfl⟩
  · exact .inr ⟨by omega, rfl⟩

theorem dataOperand_cases (K len : Nat) (data : Buffer) :
    (Config.KEY_MAX K < len ∧ dataOperand K len data = .error .badLength) ∨
    (len ≤ Config.KEY_MAX K ∧ dataOperand K len data = .ok (memRead data 0 len)) := by
  unfold dataOperand
  split
  · exact .inl ⟨‹_›, rfl⟩
  · exact .inr ⟨by omega, rfl⟩

theorem digestOperand_cases (len : Nat) (data : Buffer) :
    (len ≠ 20 ∧ digestOperand len data = .error .badLength) ∨
    (len = 20 ∧ digestOperand len data = .ok (memRead data 0 20)) := by
  unfold digestOperand
  split
  · exact .inl ⟨‹_›, rfl⟩
  · exact .inr ⟨not_not.mp ‹_›, rfl⟩

theorem checkKey_cases (key : List Byte) :
    (key.length = 0 ∧ checkKey key = .error .invalidSecret) ∨ (0 < key.length ∧ checkKey key = .ok key) := by
  unfold checkKey
  split
  · exact .inl ⟨‹_›, rfl⟩
  · exact .inr ⟨by omega, rfl⟩

theorem checkDigits_cases (n : Nat) :
    ((n < 1 ∨ 9 < n) ∧ checkDigits n = .error .invalidDigitCount) ∨ ((1 ≤ n ∧ n ≤ 9) ∧ checkDigits n = .ok n) := by
  unfold checkDigits
  split
  · exact .inl ⟨‹_›, rfl⟩
  · exact .inr ⟨by omega, rfl⟩

theorem checkPeriod_cases (p : Nat) :
    (p = 0 ∧ checkPeriod p = .error .invalidPeriod) ∨ (0 < p ∧ checkPeriod p = .ok p) := by
  unfold checkPeriod
  split
  · exact .inl ⟨‹_›, rfl⟩
  · exact .inr ⟨by omega, rfl⟩

/-- What the shared part of HOTP and TOTP can do. -/
theorem hotpCompute_cases (b : List Byte) (c n : Nat) :
    (b.length = 0 ∧ hotpCompute b c n = .error .invalidSecret) ∨
    (0 < b.length ∧ (n < 1 ∨ 9 < n) ∧ hotpCompute b c n = .error .invalidDigitCount) ∨
    (0 < b.length ∧ (1 ≤ n ∧ n ≤ 9) ∧
      hotpCompute b c n = .ok (otpText (truncValue (hmacSha1 b (counterBlock c))) n)) := by
  rcases checkKey_cases b with ⟨h, e⟩ | ⟨h, e⟩
  · exact .inl ⟨h, by simp [hotpCompute, e]⟩
  · rcases checkDigits_cases n with ⟨g, f⟩ | ⟨g, f⟩
    · exact .inr (.inl ⟨h, g, by simp [hotpCompute, e, f]⟩)
    · exact .inr (.inr ⟨h, g, by simp [hotpCompute, truncate, e, f]⟩)

/-! ### The host's reading of a response -/

@[simp] theorem length_drawBytes (f : Nat → Byte) (n : Nat) : (drawBytes f n).length = n := by simp [drawBytes]

@[simp] theorem textValue_ofText (t : List Byte) : (Response.ofText t).textValue = some t := by
  simp [Response.textValue, memRead_memWrite_nil]

@[simp] theorem dataValue_ofData (d : List Byte) : (Response.ofData d).dataValue = some d := by
  simp [Response.dataValue, memRead_memWrite_nil]

@[simp] theorem textResult_ofText (t : List Byte) : textResult (Response.ofText t) = .ok t := by simp [textResult]

@[simp] theorem textResult_ofError (e : Err) : textResult (Response.ofError e) = .error e.code := by cases e <;> rfl

/-- What GENSECRET can do: report EntropyUnavailable, or return what B32ENC of the drawn bytes answers. -/
theorem genSecret_cases (K : Nat) (source : Option (Nat → Byte)) (n : Nat) :
    (source = none ∧ genSecret K source n = .error Err.entropyUnavailable.code) ∨
    (∃ f, source = some f ∧ genSecret K source n = textResult (responseTo K (reqB32enc (drawBytes f n)))) := by
  cases source with
  | none => exact .inl ⟨rfl, rfl⟩
  | some f => exact .inr ⟨f, rfl, rfl⟩

/-! ### Every response is sound -/

theorem Response.wf_ofError (K : Nat) {e : Err} (h : e ≠ .entropyUnavailable) : (Response.ofError e).wf K = true := by
  cases e <;> first | rfl | exact absurd rfl h

theorem payloadOk_written {cap : Nat} {v : List Byte} (h : v.length ≤ cap) :
    payloadOk cap (some v.length) (some (memWrite [] 0 v)) = true := by
  simp [payloadOk, h, wf_memWrite_nil]

theorem Response.wf_ofText {K : Nat} {t : List Byte} (h : t.length ≤ Config.TXT_MAX K) :
    (Response.ofText t).wf K = true := by
  simp only [Response.wf, Response.ofText_err, Response.ofText_rtextLen, Response.ofText_rtext, Response.ofText_rdataLen,
    Response.ofText_rdata, payloadOk_written h]
  rfl

theorem Response.wf_ofTrunc {K : Nat} {t : List Byte} (p : Nat) (h : t.length ≤ Config.TXT_MAX K) :
    (Response.ofTrunc p t).wf K = true := by
  simp only [Response.wf, Response.ofTrunc_err, Response.ofTrunc_rtextLen, Response.ofTrunc_rtext,
    Response.ofTrunc_rdataLen, Response.ofTrunc_rdata, payloadOk_written h]
  rfl

theorem Response.wf_ofData {K : Nat} {d : List Byte} (h : d.length ≤ Config.KEY_MAX K) :
    (Response.ofData d).wf K = true := by
  simp only [Response.wf, Response.ofData_err, Response.ofData_rtextLen, Response.ofData_rtext, Response.ofData_rdataLen,
    Response.ofData_rdata, payloadOk_written h]
  rfl

theorem Response.wf_ofCounter (K c : Nat) : (Response.ofCounter c).wf K = true := rfl

/-- The text of a legal digit count fits, since `K >= 4` (R7). -/
theorem length_otpText_le {K n : Nat} (hK : 4 ≤ K) (h : n ≤ 9) (p : Nat) : (otpText p n).length ≤ Config.TXT_MAX K := by
  rw [length_otpText]; show n ≤ 8 * K; omega

/-- R7: at every `K >= 4`, whatever an operation gives, success or error, its response is sound. -/
theorem respond_opResult_wf {K : Nat} (hK : 4 ≤ K) (i : Instr) : (respond (opResult K i)).wf K = true := by
  cases i with
  | b32enc n d =>
    rcases dataOperand_cases K n d with ⟨_, e⟩ | ⟨h, e⟩ <;> simp only [opResult, opB32enc, e]
    · exact Response.wf_ofError K (by decide)
    · refine Response.wf_ofText ?_
      rw [length_b32Encode, length_memRead]
      simp only [Config.KEY_MAX, Config.TXT_MAX] at *
      omega
  | b32dec n t =>
    rcases textOperand_cases K n t with ⟨_, e⟩ | ⟨h, e⟩ <;> simp only [opResult, opB32dec, e]
    · exact Response.wf_ofError K (by decide)
    · rcases b32Decode_cases (memRead t 0 n) with ⟨f, _⟩ | ⟨r, f, _, hr⟩ <;> simp only [f]
      · exact Response.wf_ofError K (by decide)
      · refine Response.wf_ofData ?_
        have := length_foldStrip_le (memRead t 0 n)
        rw [length_memRead] at this
        simp only [Config.KEY_MAX, Config.TXT_MAX] at *
        omega
  | hmac n d c =>
    rcases dataOperand_cases K n d with ⟨_, e⟩ | ⟨h, e⟩ <;> simp only [opResult, opHmac, e]
    · exact Response.wf_ofError K (by decide)
    · rcases checkKey_cases (memRead d 0 n) with ⟨_, f⟩ | ⟨_, f⟩ <;> simp only [f]
      · exact Response.wf_ofError K (by decide)
      · exact Response.wf_ofData (by rw [length_hmacSha1]; show 20 ≤ 5 * K; omega)
  | trunc n d g =>
    rcases digestOperand_cases n d with ⟨_, e⟩ | ⟨h, e⟩ <;> simp only [opResult, opTrunc, e]
    · exact Response.wf_ofError K (by decide)
    · rcases checkDigits_cases g.toNat with ⟨_, f⟩ | ⟨k, f⟩ <;> simp only [truncate, f]
      · exact Response.wf_ofError K (by decide)
      · exact Response.wf_ofTrunc _ (length_otpText_le hK k.2 _)
  | tstep w p =>
    rcases checkPeriod_cases p.toNat with ⟨_, e⟩ | ⟨_, e⟩ <;> simp only [opResult, opTstep, tStep, e]
    · exact Response.wf_ofError K (by decide)
    · exact Response.wf_ofCounter K _
  | hotp n d c g =>
    rcases dataOperand_cases K n d with ⟨_, e⟩ | ⟨h, e⟩ <;> simp only [opResult, opHotp, e]
    · exact Response.wf_ofError K (by decide)
    · rcases hotpCompute_cases (memRead d 0 n) c.toNat g.toNat with ⟨_, f⟩ | ⟨_, _, f⟩ | ⟨_, k, f⟩ <;> simp only [f]
      · exact Response.wf_ofError K (by decide)
      · exact Response.wf_ofError K (by decide)
      · exact Response.wf_ofText (length_otpText_le hK k.2 _)
  | totp n t w p g =>
    rcases textOperand_cases K n t with ⟨_, e⟩ | ⟨h, e⟩ <;> simp only [opResult, opTotp, e]
    · exact Response.wf_ofError K (by decide)
    · rcases b32Decode_cases (memRead t 0 n) with ⟨f, _⟩ | ⟨r, f, _, _⟩ <;> simp only [secretOf, f]
      · exact Response.wf_ofError K (by decide)
      · rcases checkPeriod_cases p.toNat with ⟨_, e'⟩ | ⟨_, e'⟩ <;> simp only [tStep, e']
        · exact Response.wf_ofError K (by decide)
        · rcases hotpCompute_cases r (w.toNat / p.toNat) g.toNat with ⟨_, f'⟩ | ⟨_, _, f'⟩ | ⟨_, k, f'⟩ <;>
            simp only [f']
          · exact Response.wf_ofError K (by decide)
          · exact Response.wf_ofError K (by decide)
          · exact Response.wf_ofText (length_otpText_le hK k.2 _)
  | reserved7 => exact Response.wf_ofError K (by decide)

end Sys2Proof.Machine
end

