-- ==== Sys2Proof/Machine/Listing.lean ====
section
/-! DEFINITION. The textual form of requests and responses (spec/30_encoding.md R75). -/

namespace Sys2Proof.Machine

/-- A hexadecimal digit. -/
def hexDigit (n : Nat) : Char := if n < 10 then Char.ofNat (0x30 + n) else Char.ofNat (0x57 + n)

/-- R75: `hex:` followed by hex digit pairs, first byte first. -/
def listBytes (b : List Byte) : String :=
  "hex:" ++ String.ofList (b.flatMap fun x => [hexDigit (x.toNat / 16), hexDigit (x.toNat % 16)])

/-- R75: a double-quoted string. DESIGN CHOICE (log entry 12): R75 gives no escape for a double quote, a control byte or a byte
`>= 0x80` in a text; here every byte is written as the character of its code, unescaped, so a double quote inside a text
looks like its end. -/
def listText (t : List Byte) : String :=
  "\"" ++ String.ofList (t.map fun c => Char.ofNat c.toNat) ++ "\""

/-- R75: the mnemonic followed by the operands the operation reads, separated by commas. -/
def instrListing : Instr → String
  | .b32enc n d => "B32ENC " ++ listBytes (memRead d 0 n)
  | .b32dec n t => "B32DEC " ++ listText (memRead t 0 n)
  | .hmac n d c => "HMAC " ++ listBytes (memRead d 0 n) ++ ", " ++ toString c.toNat
  | .trunc n d g => "TRUNC " ++ listBytes (memRead d 0 n) ++ ", " ++ toString g.toNat
  | .tstep w p => "TSTEP " ++ toString w.toNat ++ ", " ++ toString p.toNat
  | .hotp n d c g =>
    "HOTP " ++ listBytes (memRead d 0 n) ++ ", " ++ toString c.toNat ++ ", " ++ toString g.toNat
  | .totp n t w p g =>
    "TOTP " ++ listText (memRead t 0 n) ++ ", " ++ toString w.toNat ++ ", " ++ toString p.toNat ++ ", "
      ++ toString g.toNat
  | .reserved7 => "RESERVED7"

/-- R67: the names of the error codes. -/
def errName (code : BitVec 3) : String :=
  match code.toNat with
  | 0 => "OK"
  | 1 => "InvalidEncoding"
  | 2 => "InvalidSecret"
  | 3 => "InvalidDigitCount"
  | 4 => "EntropyUnavailable"
  | 5 => "InvalidPeriod"
  | 6 => "IllegalOp"
  | _ => "BadLength"

/-- R75: `-> OK <results>` or `-> ERR <name>`. -/
def responseListing (r : Response) : String :=
  if r.err ≠ errOk then "-> ERR " ++ errName r.err
  else
    let parts := [r.rval.map fun v => "rval = " ++ toString v.toNat, r.textValue.map listText,
      r.dataValue.map listBytes, r.rctr.map fun v => "rctr = " ++ toString v.toNat]
    "-> OK " ++ String.intercalate ", " (parts.filterMap id)

end Sys2Proof.Machine
end

