-- ==== Sys2Proof/Tests/Slice0.lean ====
section
/-! SUPPORT. Tests: single steps and single results taken from spec/95_test_vectors.md, words written out from the encoding, ill-formed
terms that WellFormed refuses, and for each statement with hypotheses a witness that meets them. -/

namespace Sys2Proof.Tests

open Sys2Proof Sys2Proof.Machine

/-! ### Helpers -/

/-- The next state of an outcome. -/
def nextOf (o : Host.Outcome State Fault Refusal) : Option State :=
  match o with
  | .next t => some t
  | _ => none

/-- The response after an operation completes at the reset state. -/
def answer (i : Instr) : Option Response := (nextOf (exec i State.reset)).bind (·.resp)

/-- The inputs of one edge. -/
def edge (rst valid : Bool) (q : Request) (ready : Bool) : EdgeIn := ⟨rst, valid, q, ready⟩

/-- The request `TSTEP 59, 30` of program P5. -/
def q59 : Request := (Instr.tstep 59 30).toRequest
def q60 : Request := (Instr.tstep 60 30).toRequest

def idleAt (ins : List EdgeIn) : State := { State.reset with inputs := ins }
def busyAt (q : Request) (left : Nat) (ins : List EdgeIn) : State :=
  { State.reset with st := .busy, cmd := some q, left := left, inputs := ins }
def doneAt (r : Response) (ins : List EdgeIn) : State :=
  { State.reset with st := .done, resp := some r, inputs := ins }

def counterOne : Response := { errorResponse 0 with rctr := some 1 }

/-! ### WellFormed: an ill-formed term for each check, which the check refuses -/

theorem test_wf_ok : Instr.wf Config.K (.b32enc 2 [(0, 0x66), (159, 0x01)]) = true := by decide
theorem test_wf_unsorted : Instr.wf Config.K (.b32enc 2 [(1, 0x66), (0, 0x01)]) = false := by decide
theorem test_wf_repeat : Instr.wf Config.K (.hmac 2 [(1, 0x66), (1, 0x01)] 0) = false := by decide
theorem test_wf_listed_zero : Instr.wf Config.K (.trunc 20 [(0, 0x00)] 6) = false := by decide
theorem test_wf_beyond_data : Instr.wf Config.K (.hotp 1 [(160, 0x01)] 0 6) = false := by decide
theorem test_wf_text_capacity : Instr.wf Config.K (.b32dec 1 [(255, 0x41)]) = true := by decide
theorem test_wf_beyond_text : Instr.wf Config.K (.totp 1 [(256, 0x41)] 0 30 6) = false := by decide
theorem test_wf_b32dec_unsorted : Instr.wf Config.K (.b32dec 1 [(2, 0x41), (1, 0x41)]) = false := by decide
theorem test_wf_request : Request.wf Config.K { Request.blank with data := [(160, 0x01)] } = false ∧
    Request.wf Config.K { Request.blank with text := [(3, 0x00)] } = false := by decide
/-- The length fields of the default instance have 8 and 9 bits, those of `K = 4` 5 and 6 (R7). -/
theorem test_wf_data_length :
    Instr.wf Config.K (.b32enc 255 []) = true ∧ Instr.wf Config.K (.b32enc 256 []) = false ∧
    Instr.wf 4 (.hmac 31 [] 0) = true ∧ Instr.wf 4 (.hmac 32 [] 0) = false := by decide
theorem test_wf_text_length :
    Instr.wf Config.K (.b32dec 511 []) = true ∧ Instr.wf Config.K (.b32dec 512 []) = false ∧
    Instr.wf 4 (.totp 63 [] 0 30 6) = true ∧ Instr.wf 4 (.totp 64 [] 0 30 6) = false := by decide
theorem test_wf_request_lengths :
    Request.wf Config.K { Request.blank with textLen := 512 } = false ∧
    Request.wf Config.K { Request.blank with dataLen := 256 } = false := by decide

/-! ### Decoding: words written out from the encoding (op at bits 2..0, spec/30_encoding.md R63) -/

theorem test_decode_b32enc :
    decodeTableWord 2240 (0b000 + 1 * 2 ^ (176 + 2048) + 0x66 * 2 ^ (184 + 2048)) = some (.b32enc 1 [(0, 0x66)]) := by
  decide +kernel
theorem test_decode_b32dec :
    decodeTableWord 192 (0b001 + 2 * 2 ^ 167 + 0x594D * 2 ^ 176) = some (.b32dec 2 [(0, 0x4D), (1, 0x59)]) := by decide
theorem test_decode_hmac :
    decodeTableWord 2240 (0b010 + 7 * 2 ^ 103 + 1 * 2 ^ (176 + 2048) + 0x6B * 2 ^ (184 + 2048))
      = some (.hmac 1 [(0, 0x6B)] 7) := by decide +kernel
theorem test_decode_trunc : decodeTableWord 8 0b0110011 = some (.trunc 0 [] 6) := by decide
theorem test_decode_tstep : decodeTableWord 104 (0b100 + 59 * 2 ^ 7 + 30 * 2 ^ 71) = some (.tstep 59 30) := by decide
theorem test_decode_hotp : decodeTableWord 168 (0b101 + 8 * 2 ^ 3 + 1 * 2 ^ 103) = some (.hotp 0 [] 1 8) := by decide
theorem test_decode_totp :
    decodeTableWord 184 (0b110 + 6 * 2 ^ 3 + 59 * 2 ^ 7 + 30 * 2 ^ 71 + 1 * 2 ^ 167 + 0x41 * 2 ^ 176)
      = some (.totp 1 [(0, 0x41)] 59 30 6) := by decide
theorem test_decode_reserved7 : decodeTableWord 8 0b111 = some .reserved7 := by decide
theorem test_decode_refuses_bit_3512 : decodeTableWord 3520 (1 <<< 3512) = none := by decide +kernel
/-- Another instance: at `K = 4` text_len has 6 bits, so the text stands from bit 173 on. -/
theorem test_decode_small_instance :
    decodeWord 4 (0b001 + 2 * 2 ^ 167 + 0x594D * 2 ^ 173) = .ok (.b32dec 2 [(0, 0x4D), (1, 0x59)]) := by rfl
theorem test_decodeBytes_short : decodeBytes Config.K [0x04] = .error .tooShort := by rfl

/-- The very next step after `withFetchWord` is the row's operation. -/
theorem test_fetch_tstep :
    (nextOf (step (State.reset.withFetchWord 104 (4 + 59 * 2 ^ 7 + 30 * 2 ^ 71)))).bind (·.resp) = some counterOne := by decide
theorem test_fetch_reserved7 :
    (nextOf (step (State.reset.withFetchWord 8 7))).bind (·.resp) = some (errorResponse 6) := by decide

/-! ### Operations (spec/95_test_vectors.md) -/

/-- V-ENC-7, V-ENC-17 and the largest length. -/
theorem test_b32enc_foobar :
    answer (reqB32enc (bytesBE 0x666f6f626172 6)) = some (textResponse (bytesBE 0x4d5a5857365954424f493d3d3d3d3d3d 16)) := by
  decide +kernel
theorem test_b32enc_capacity :
    (answer (.b32enc 160 [])).map (·.err) = some 0 ∧ answer (.b32enc 161 []) = some (errorResponse 7) := by decide +kernel

/-- V-DEC-23 (mixed case, wrong pad count), V-DEC-35 (`=` not trailing), V-DEC-48. -/
theorem test_b32dec_mixed :
    answer (reqB32dec (bytesBE 0x4d7a587736795462 8 ++ [0x4F, 0x69, 0x3D]))
      = some (dataResponse (bytesBE 0x666f6f626172 6)) := by decide +kernel
theorem test_b32dec_errors :
    answer (reqB32dec [0x4D, 0x3D, 0x59]) = some (errorResponse 1) ∧ answer (.b32dec 257 []) = some (errorResponse 7) ∧
    (answer (.b32dec 256 [])).map (·.err) = some 1 := by decide +kernel

/-- V-HMAC-2 and V-HMAC-14, V-HMAC-15. -/
theorem test_hmac_rfc_key :
    answer (reqHmac (bytesBE 0x3132333435363738393031323334353637383930 20) 1)
      = some (dataResponse (bytesBE 0x75a48a19d4cbe100644e8ac1397eea747a2d33ab 20)) := by decide +kernel
theorem test_hmac_errors :
    answer (.hmac 0 [] 0) = some (errorResponse 2) ∧ answer (.hmac 161 [] 0) = some (errorResponse 7) := by decide

/-- V-TRUNC-11 (the top bit of `d[offset]` is lost) and V-TRUNC-16 to V-TRUNC-19. -/
theorem test_trunc_top_bit :
    answer (reqTrunc (bytesBE 0x808182838485868788898a8b8c8d8e8f909192a5 20) 9)
      = some { textResponse (bytesBE 0x303932373032363030 9) with rval := some 92702600 } := by decide +kernel
theorem test_trunc_errors :
    answer (.trunc 20 [] 0) = some (errorResponse 3) ∧ answer (.trunc 20 [] 10) = some (errorResponse 3) ∧
    answer (.trunc 19 [] 0) = some (errorResponse 7) ∧ answer (.trunc 21 [] 6) = some (errorResponse 7) ∧
    (answer (.trunc 20 [] 9)).map (·.err) = some 0 ∧ (answer (.trunc 20 [] 1)).map (·.err) = some 0 := by decide +kernel

/-- V-TSTEP-10 (largest `now` and `period`) and V-TSTEP-15. -/
theorem test_tstep_largest :
    answer (.tstep 0xFFFFFFFFFFFFFFFF 0xFFFFFFFF) = some { errorResponse 0 with rctr := some 4294967297 } := by decide
theorem test_tstep_zero_period : answer (.tstep 59 0) = some (errorResponse 5) := by decide

/-- V-HOTP-20 (nine digits, a leading zero) and V-HOTP-37, V-HOTP-39. -/
theorem test_hotp_nine_digits :
    answer (reqHotp (bytesBE 0x3132333435363738393031323334353637383930 20) 1 9)
      = some (textResponse (bytesBE 0x303934323837303832 9)) := by decide +kernel
theorem test_hotp_priority :
    answer (.hotp 0 [] 0 0) = some (errorResponse 2) ∧ answer (.hotp 161 [] 0 0) = some (errorResponse 7) ∧
    answer (.hotp 1 [] 0 10) = some (errorResponse 3) := by decide

/-- V-TOTP-12 (the printed literal) and V-TOTP-17 to V-TOTP-23, V-TOTP-27. -/
theorem test_totp_literal :
    answer (reqTotp (bytesBE 0x47455a44474e425647593354514f4a51 16) 59 30 8)
      = some (textResponse (bytesBE 0x3133323633343230 8)) := by decide +kernel
theorem test_totp_priority :
    answer (reqTotp [0x31] 59 0 0) = some (errorResponse 2) ∧ answer (reqTotp [] 59 0 0) = some (errorResponse 5) ∧
    answer (reqTotp [] 59 30 0) = some (errorResponse 2) ∧ answer (reqTotp [0x4D, 0x59] 59 30 10) = some (errorResponse 3) ∧
    answer (.totp 257 [] 59 30 6) = some (errorResponse 7) := by decide +kernel

/-- V-OP-2. -/
theorem test_reserved7 :
    (nextOf (exec (decode { Request.blank with op := 7, textLen := 511, dataLen := 255 }) State.reset)).bind (·.resp)
      = some (errorResponse 6) := by decide

/-- The second round-0 and round-1 states of SHA-1 of "abc" (spec/95_test_vectors.md 2.3). -/
theorem test_sha1_rounds :
    let w := schedule (sha1Pad [0x61, 0x62, 0x63])
    sha1Rounds 0 (w.take 2) sha1Init = ⟨0x8990536D, 0x0116FC33, 0x59D148C0, 0x7BF36AE2, 0x98BADCFE⟩ ∧
    w.getD 19 0 = 0x85898E01 := by decide +kernel

/-- V-HMAC-9: a 65-byte key is hashed first. -/
theorem test_sha1_long_key :
    sha1 ((List.range 65).map fun i => BitVec.ofNat 8 i) = bytesBE 0x69bd728ad6e13cd76ff19751fde427b00e395746 20 := by
  decide +kernel

/-- Another instance (R7): at `K = 4` the capacities are 20 bytes and 32 characters. -/
theorem test_small_instance :
    (responseTo 4 (.b32enc 20 [])).err = 0 ∧ responseTo 4 (.b32enc 21 []) = errorResponse 7 ∧
    responseTo 4 (.b32dec 33 []) = errorResponse 7 := by decide +kernel

/-- R156, R157: 20 bytes by default, an encoding of the drawn bytes, EntropyUnavailable without a source. -/
theorem test_gensecret :
    genSecret Config.K (some fun k => BitVec.ofNat 8 (0x66 + 9 * k)) 2 = .ok [0x4D, 0x5A, 0x58, 0x51, 0x3D, 0x3D, 0x3D, 0x3D] ∧
    hostGenSecret Config.K none (some 5) = .error 4 := by decide +kernel

/-! ### The edges of program P5 -/

/-- Edge 1: ACCEPT. -/
theorem test_accept :
    (nextOf (step (idleAt [edge false true q59 false]))).map (fun t => (t.st, t.cmd, t.resp)) = some (.busy, some q59, none) := by
  decide
/-- Edge 2: waiting, another request presented. -/
theorem test_wait :
    nextOf (step (busyAt q59 3 [edge false true q60 false])) = some { busyAt q59 2 [] with edge := 1 } := by decide
/-- Edge 4: COMPLETE. -/
theorem test_complete :
    nextOf (step (busyAt q59 1 [edge false true q60 true])) = some { doneAt counterOne [] with edge := 1 } := by decide
/-- Edges 5 and 6: held, then RETIRE. -/
theorem test_hold :
    nextOf (step (doneAt counterOne [edge false true q60 false])) = some { doneAt counterOne [] with edge := 1 } := by decide
theorem test_retire :
    nextOf (step (doneAt counterOne [edge false true q60 true])) = some { idleAt [] with edge := 1 } := by decide
/-- P4, step 7: RESET in BUSY. -/
theorem test_reset_busy :
    nextOf (step (busyAt q59 2 [edge true true q59 true])) = some { idleAt [] with edge := 1 } := by decide
/-- A state no run reaches faults by name. -/
theorem test_busy_without_command :
    nextOf (step { State.reset with st := .busy }) = none := by decide

/-- R75: the notation. -/
theorem test_listing :
    instrListing (reqTrunc [0x1F, 0x86] 6) = "TRUNC hex:1f86, 6" ∧
    responseListing (errorResponse 1) = "-> ERR InvalidEncoding" ∧
    responseListing counterOne = "-> OK rctr = 1" := by decide +kernel

/-! ### Witnesses: for each statement with hypotheses, an input that meets them all -/

theorem witness_ResetState :
    (busyAt q59 2 [edge true false q59 false]).edgeIn.rst = true ∧
    (busyAt q59 2 [edge true false q59 false]).inputs = (doneAt counterOne [edge true false q59 false]).inputs ∧
    (busyAt q59 2 [edge true false q59 false]).edge = (doneAt counterOne [edge true false q59 false]).edge := by decide
theorem witness_StepRunsDecoded :
    (busyAt q59 1 []).edgeIn.rst = false ∧ (busyAt q59 1 []).st = .busy ∧ (busyAt q59 1 []).left ≤ 1 ∧
    (busyAt q59 1 []).cmd = some q59 ∧ decodeTableWord 8 4 = some (.tstep 0 0) := by decide
theorem witness_AcceptStep_accepts :
    (idleAt [edge false true q59 false]).st = .idle ∧ (idleAt [edge false true q59 false]).edgeIn.reqValid = true ∧
    (idleAt [edge false true q59 false]).edgeIn.rst = false := by decide
theorem witness_AcceptStep_waits :
    (busyAt q59 3 [edge false true q60 false, edge false true q60 false]).st ≠ .idle ∧
    (busyAt q59 3 [edge false true q60 false, edge false true q60 false]).edgeIn.reqValid = true ∧
    (busyAt q59 3 [edge false true q60 false, edge false true q60 false]).requestStable = true ∧
    (nextOf (step (busyAt q59 3 [edge false true q60 false, edge false true q60 false]))).isSome = true := by decide
theorem witness_AcceptStep_done :
    (doneAt counterOne []).st ≠ .idle ∧ (nextOf (step (doneAt counterOne []))).isSome = true := by decide
theorem witness_ResponseIsExec :
    (busyAt q59 1 []).edgeIn.rst = false ∧ (busyAt q59 1 []).st = .busy ∧ (busyAt q59 1 []).left ≤ 1 ∧
    (busyAt q59 1 []).cmd = some q59 := by decide
theorem witness_RetireStep :
    (doneAt counterOne [edge false false q59 true]).st = .done ∧
    (doneAt counterOne [edge false false q59 true]).edgeIn.respReady = true ∧
    (doneAt counterOne [edge false false q59 true]).edgeIn.rst = false ∧
    (doneAt counterOne []).edgeIn.respReady = false ∧ (doneAt counterOne []).edgeIn.rst = false := by decide
theorem witness_StatusOutputs : (doneAt counterOne []).resp = some counterOne := by decide
theorem witness_ReservedResult : ({ q59 with op := 7 } : Request).op = 7 := by decide
theorem witness_ErrorReported :
    opResult Config.K (.tstep 59 0) = .error .invalidPeriod ∧ opResult Config.K (.tstep 59 30) = .ok counterOne ∧
    nextOf (exec (.tstep 59 0) (busyAt q59 1 [edge false false q59 false, edge false false q59 true]))
      = some { doneAt (errorResponse 5) [edge false false q59 true] with edge := 1 } ∧
    (doneAt (errorResponse 5) [edge false false q59 true]).edgeIn.rst = false ∧
    (doneAt (errorResponse 5) [edge false false q59 true]).edgeIn.respReady = true ∧
    (doneAt (errorResponse 5) []).edgeIn.rst = false ∧ (doneAt (errorResponse 5) []).edgeIn.respReady = false :=
  ⟨rfl, rfl, rfl, rfl, rfl, rfl, rfl⟩
theorem witness_ErrorsLeaveNothing :
    opResult Config.K (.tstep 59 0) = .error .invalidPeriod ∧
    exec (.tstep 59 0) (busyAt q59 1 [edge false true q60 true, edge false true q60 false])
      = .next { doneAt (errorResponse 5) [edge false true q60 false] with edge := 1 } ∧
    exec (.tstep 59 30) (busyAt q59 1 []) = .next ((busyAt q59 1 []).complete counterOne) := ⟨rfl, rfl, rfl⟩
theorem witness_ResultFrame :
    (busyAt q59 1 []).resp = none ∧ opResult Config.K (.tstep 59 30) = .ok counterOne ∧ opResult Config.K .reserved7 = .error .illegalOp :=
  ⟨rfl, rfl, rfl⟩
theorem witness_LanesAboveLength :
    (∀ k < 2, Buffer.read [(0, 0x66), (1, 0x6F)] k = Buffer.read [(0, 0x66), (1, 0x6F), (2, 0xFF)] k) ∧
    (∀ k < 1, Buffer.read [(0, 0x41)] k = Buffer.read [(0, 0x41), (1, 0xFF)] k) ∧
    lenValue (doneAt (textResponse [0x41]) []).respRtextLen ≤ 1 ∧
    4 ≤ Config.K ∧ Config.KEY_MAX Config.K < 161 ∧ Config.TXT_MAX Config.K < 257 := by decide
theorem witness_UnreadFieldsIgnored_lengths :
    q59.wf Config.K = true ∧ ({ q59 with op := 1, textLen := 511, dataLen := 255 } : Request).wf Config.K = true ∧
    (execRequest Config.K { q59 with op := 1, textLen := 257 }).err = 7 ∧
    (execRequest Config.K { q59 with op := 1, textLen := 256 }).err = 1 ∧
    (execRequest Config.K { q59 with op := 0, dataLen := 161 }).err = 7 ∧
    (execRequest Config.K { q59 with op := 0, dataLen := 160 }).err = 0 := by decide +kernel
theorem witness_UnreadFieldsIgnored :
    let q := q59
    let q' := { q59 with digits := 15, ctr := 9, textLen := 511, dataLen := 255, data := [(0, 1)] }
    q.op = q'.op ∧ ((q.op = 0 ∨ q.op = 2 ∨ q.op = 3 ∨ q.op = 5) → q.dataLen = q'.dataLen ∧ q.data = q'.data) ∧
    ((q.op = 1 ∨ q.op = 6) → q.textLen = q'.textLen ∧ q.text = q'.text) ∧
    ((q.op = 2 ∨ q.op = 5) → q.ctr = q'.ctr) ∧ ((q.op = 3 ∨ q.op = 5 ∨ q.op = 6) → q.digits = q'.digits) ∧
    ((q.op = 4 ∨ q.op = 6) → q.now = q'.now ∧ q.period = q'.period) ∧ q ≠ q' := by decide
theorem witness_DecodeBits_fold :
    (0x61 ≤ (0x61 : Byte).toNat ∧ (0x61 : Byte).toNat ≤ 0x7A) ∧ (0x61 ≤ (0x7A : Byte).toNat ∧ (0x7A : Byte).toNat ≤ 0x7A) ∧
    (0x60 : Byte).toNat < 0x61 ∧ 0x7A < (0x7B : Byte).toNat ∧
    upper 0x61 = 0x41 ∧ upper 0x7A = 0x5A ∧ upper 0x60 = 0x60 ∧ upper 0x7B = 0x7B ∧ upper 0xE1 = 0xE1 := by decide
theorem witness_DecodeBits : b32Decode [0x4D, 0x59] = .ok [0x66] ∧ (0 : Nat) < ([0x66] : List Byte).length := ⟨rfl, by decide⟩
theorem witness_DecodeLength : opResult Config.K (.b32dec 2 [(0, 0x4D), (1, 0x59)]) = .ok (dataResponse [0x66]) := rfl
theorem witness_RoundTripRequests : 4 ≤ Config.K ∧ (List.replicate 160 (0xA5 : Byte)).length ≤ Config.KEY_MAX Config.K := by
  rw [List.length_replicate]; decide
theorem witness_LongKeys :
    64 < (List.replicate 65 (0x01 : Byte)).length ∧ (List.replicate 64 (0x01 : Byte)).length = 64 := by decide
theorem witness_TruncatedValue : (List.replicate 20 (0xFF : Byte)).length = 20 := by decide
theorem witness_FewerDigitsAreASuffix :
    (1 : BitVec 4).toNat ≤ (9 : BitVec 4).toNat ∧
    (∃ r, opResult Config.K (.trunc 20 [(0, 0x3B)] 9) = .ok r) ∧ (∃ r, opResult Config.K (.trunc 20 [(0, 0x3B)] 1) = .ok r) :=
  ⟨by decide, ⟨_, rfl⟩, ⟨_, rfl⟩⟩
/-- Every statement over all capacities is about the default one, the least one and others. -/
theorem witness_capacities : 4 ≤ Config.K ∧ (4 : Nat) ≤ 4 ∧ (4 : Nat) ≤ 51 := by decide
theorem witness_WindowStability :
    (30 : BitVec 64).toNat / (30 : BitVec 32).toNat = (59 : BitVec 64).toNat / (30 : BitVec 32).toNat ∧
    (30 : BitVec 64) ≠ 59 := by decide
theorem witness_TimeCounter : 1 ≤ (1 : BitVec 32).toNat := by decide
theorem witness_GenSecret :
    4 ≤ Config.K ∧ (1 : Nat) ≤ 160 ∧ 160 ≤ Config.KEY_MAX Config.K ∧ genSecret Config.K none 20 = .error 4 ∧
    genSecret Config.K (some fun _ => 0x00) 20 = .ok (List.replicate 32 0x41) := by decide +kernel
theorem witness_HostDefaults :
    4 ≤ Config.K ∧ hostGenSecret Config.K (some fun _ => 0x00) none = .ok (List.replicate 32 0x41) ∧
    hostGenSecret Config.K (some fun _ => 0x00) (some 0) = .ok [] ∧ ((0 : BitVec 32) = 0 ∨ (6 : BitVec 4) = 0) ∧
    ((30 : BitVec 32) = 0 ∨ (0 : BitVec 4) = 0) := by decide +kernel
theorem witness_InvariantKept_idle :
    (idleAt [edge false true q59 false]).inv Config.K = true ∧ (nextOf (step (idleAt [edge false true q59 false]))).isSome = true := by
  decide
theorem witness_InvariantKept_busy :
    (busyAt q59 1 []).inv Config.K = true ∧ (nextOf (step (busyAt q59 1 []))).isSome = true := by
  refine ⟨?_, by decide⟩
  simp [State.inv, busyAt, State.reset, Config.latency, show q59.wf Config.K = true by decide]
theorem witness_MemoryCanonicalKept :
    Memory.wf Config.K (busyAt (reqB32enc [0x66]).toRequest 1 []) = true ∧
    (nextOf (step (busyAt (reqB32enc [0x66]).toRequest 1 []))).isSome = true := by decide
theorem witness_NeverStops : (doneAt counterOne []).inv Config.K = true := by decide
theorem witness_AcceptedIsAnswered :
    (idleAt [edge false true q59 false]).st = .idle ∧ (idleAt [edge false true q59 false]).edgeIn.reqValid = true ∧
    ∀ k ≤ Config.latency Config.K ((idleAt [edge false true q59 false]).edgeIn.req.toWord Config.K),
      ((idleAt [edge false true q59 false]).inputs.getD k EdgeIn.quiet).rst = false := by
  refine ⟨rfl, rfl, fun k _ => ?_⟩
  cases k <;> simp [idleAt, edge, EdgeIn.quiet]
theorem witness_OneAtATime :
    ((nextOf (step (idleAt [edge false true q59 false]))).map (·.st) = some .busy) ∧
    ((nextOf (step (busyAt q59 2 []))).map (·.st) = some .busy) ∧
    (doneAt counterOne [edge false true q60 false]).st = .done ∧
    (∀ i ∈ (doneAt counterOne [edge false true q60 false]).inputs, i.rst = false ∧ i.respReady = false) := by decide
theorem witness_PortIgnoredAfterAccept :
    let s := busyAt q59 1 [edge false true q60 false]
    let s' := busyAt q59 1 [edge false false q59 false]
    s.st ≠ .idle ∧ s'.st = s.st ∧ s'.cmd = s.cmd ∧ s'.resp = s.resp ∧ s'.left = s.left ∧
    s'.edgeIn.rst = s.edgeIn.rst ∧ s'.edgeIn.respReady = s.edgeIn.respReady ∧ (nextOf (step s)).isSome = true := by decide
theorem witness_ResponseReadStable :
    (textResponse [0x41]).wf Config.K = true ∧ counterOne.wf Config.K = true ∧
    (doneAt (textResponse [0x41]) []).st = .done ∧
    (∀ k < 2, ((doneAt (textResponse [0x41]) []).inputs.getD k EdgeIn.quiet).rst = false ∧
      ((doneAt (textResponse [0x41]) []).inputs.getD k EdgeIn.quiet).respReady = false) ∧
    (doneAt (textResponse [0x41]) []).respErr = some 0 ∧ (doneAt (textResponse [0x41]) []).respRtextLen = some 1 ∧
    (doneAt (textResponse [0x41]) []).respRtextLane 0 = some 0x41 ∧
    (doneAt (dataResponse [0x42]) []).respRdataLen = some 1 ∧ (doneAt (dataResponse [0x42]) []).respRdataLane 0 = some 0x42 ∧
    (doneAt counterOne []).respRctr = some 1 ∧
    (doneAt { errorResponse 0 with rval := some 42 } []).respRval = some 42 := by decide
theorem witness_EndedStaysEnded :
    (idleAt [edge false false q59 true]).inv Config.K = true ∧ (idleAt [edge false false q59 true]).ended = true := by decide
theorem witness_DecodeEncode :
    4 ≤ Config.K ∧ Instr.wf Config.K (.totp 2 [(0, 0x4D), (1, 0x59)] 59 30 6) = true ∧
    (4 : Nat) ≤ 4 ∧ Instr.wf 4 (.b32dec 63 [(31, 0x41)]) = true := by decide
theorem witness_PackedWordRoundTrip :
    4 ≤ Config.K ∧ 0b111 < 2 ^ reqBits Config.K ∧ 2 ^ reqBits Config.K - 1 < 2 ^ reqBits Config.K ∧
    (4 : Nat) ≤ 4 ∧ 2 ^ reqBits 4 - 1 < 2 ^ reqBits 4 ∧ q59.wf Config.K = true := by decide +kernel
theorem witness_DecodeRefuses :
    (List.replicate 438 (0 : Byte)).length < 439 ∧ 439 < (List.replicate 440 (0 : Byte)).length ∧
    (List.replicate 439 (0 : Byte)).length = 439 :=
  ⟨by rw [List.length_replicate]; decide, by rw [List.length_replicate]; decide, List.length_replicate⟩

end Sys2Proof.Tests
end

section
/-! SUPPORT. The handshake of spec/10_state.md as rules: the status outputs, what a RESET edge leaves, what every step does to the
input list, the COMPLETE step in one equation, and what a step from BUSY or DONE can be. -/

namespace Sys2Proof.Machine

variable {K n : Nat} {s t : State} {q : Request}

/-! ### Status outputs and inputs -/

@[simp] theorem State.reqReady_eq (s : State) : s.reqReady = decide (s.st = .idle) := rfl

@[simp] theorem State.respValid_eq (s : State) : s.respValid = decide (s.st = .done) := rfl

theorem State.edgeIn_eq_getD (s : State) : s.edgeIn = s.inputs.getD 0 EdgeIn.quiet := by
  rw [State.edgeIn]
  cases s.inputs <;> rfl

/-- R191: after RESET the state is the reset state, but for the host's further moves and the edge count. -/
theorem State.doReset_eq (s : State) :
    s.doReset = { State.reset with inputs := s.inputs.tail, edge := s.edge + 1 } := rfl

/-- Every step, whatever its kind, uses up the inputs of one edge. -/
theorem step_inputs (h : step s = .next t) : t.inputs = s.inputs.tail := by
  obtain ⟨-, rfl⟩ | ⟨-, -, -, rfl⟩ | ⟨-, -, -, rfl⟩ | ⟨-, -, -, rfl⟩ | ⟨-, -, -, _, -, rfl⟩ | ⟨-, -, -, rfl⟩ |
    ⟨-, -, -, rfl⟩ := step_cases h <;> rfl

theorem step_edgeIn (h : step s = .next t) : t.edgeIn = s.tick.edgeIn := by
  rw [State.edgeIn, step_inputs h]
  rfl

/-- R194: outside IDLE a presented request that the host keeps stable is presented again at the edge after. -/
theorem State.requestStable_of_ne_idle (hs : s.st ≠ .idle) (hv : s.edgeIn.reqValid = true)
    (h : s.requestStable = true) :
    s.tick.edgeIn.reqValid = true ∧ decode s.tick.edgeIn.req = decode s.edgeIn.req := by
  simpa [State.requestStable, State.accepts, hs, hv] using h

/-! ### The step in a phase -/

theorem step_accept (hs : s.st = .idle) (hv : s.edgeIn.reqValid = true) (h : s.edgeIn.rst = false) :
    step s = .next (s.accept Config.K s.edgeIn.req) := by
  rw [step_idle h hs, if_pos hv]

theorem step_retire (hs : s.st = .done) (hv : s.edgeIn.respReady = true) (h : s.edgeIn.rst = false) :
    step s = .next s.retire := by
  rw [step_done h hs, if_pos hv]

theorem step_hold_done (hs : s.st = .done) (hv : s.edgeIn.respReady = false) (h : s.edgeIn.rst = false) :
    step s = .next s.hold := by
  rw [step_done h hs, hv]
  rfl

/-- R23, R32: at the COMPLETE edge the step stores `Exec` of the latched request, at every capacity. -/
theorem stepFor_completes (h : s.edgeIn.rst = false) (hs : s.st = .busy) (hl : s.left ≤ 1) (hq : s.cmd = some q) :
    stepFor K s = .next (s.complete (execRequest K q)) := by
  rw [stepFor_complete h hs hl hq, execFor_eq, execRequest]

theorem step_completes (h : s.edgeIn.rst = false) (hs : s.st = .busy) (hl : s.left ≤ 1) (hq : s.cmd = some q) :
    step s = .next (s.complete (execRequest Config.K q)) :=
  (step_eq_stepFor s).trans (stepFor_completes h hs hl hq)

/-- R22: outside IDLE no step latches a request, and none enters BUSY. -/
theorem step_ne_idle (hs : s.st ≠ .idle) (h : step s = .next t) :
    (t.cmd = none ∨ t.cmd = s.cmd) ∧ (t.st = .busy → s.st = .busy) := by
  obtain ⟨-, rfl⟩ | ⟨-, hi, -⟩ | ⟨-, hi, -⟩ | ⟨-, hb, -, rfl⟩ | ⟨-, hb, -, _, -, rfl⟩ | ⟨-, hd, -, rfl⟩ |
    ⟨-, hd, -, rfl⟩ := step_cases h
  · simp
  · exact absurd hi hs
  · exact absurd hi hs
  · exact ⟨.inr rfl, fun _ => hb⟩
  · exact ⟨.inl rfl, fun _ => hb⟩
  · simp
  · exact ⟨.inr rfl, id⟩

/-! ### Runs -/

theorem stepN_succ (h : step s = .next t) : stepN (n + 1) s = stepN n t := by
  rw [stepN, h]

/-- `rst` is low at each of the next `n` edges. -/
def State.rstLow (n : Nat) (s : State) : Prop := ∀ k < n, (s.inputs.getD k EdgeIn.quiet).rst = false

theorem State.rstLow_succ : s.rstLow (n + 1) ↔ s.edgeIn.rst = false ∧ s.tick.rstLow n := by
  rw [State.rstLow, Nat.forall_lt_succ_left, s.edgeIn_eq_getD]
  simp [State.rstLow]

theorem State.rstLow_mono {m : Nat} (h : s.rstLow n) (hm : m ≤ n) : s.rstLow m :=
  fun k hk => h k (hk.trans_le hm)

/-- R200: before its COMPLETE edge a latched request stays latched, through any number of edges without RESET. -/
theorem stepN_waits (hs : s.st = .busy) (hl : n < s.left) (hr : s.rstLow n) :
    ∃ t, stepN n s = some t ∧ t.st = .busy ∧ t.cmd = s.cmd := by
  induction n generalizing s with
  | zero => exact ⟨s, rfl, hs, rfl⟩
  | succ n ih =>
    obtain ⟨h0, hr'⟩ := State.rstLow_succ.mp hr
    rw [stepN_succ (step_wait h0 hs (by omega))]
    exact ih hs (by simp; omega) hr'

/-- R23: a latched request that is `n + 1` edges from COMPLETE is answered with its `Exec` after them. -/
theorem stepN_completes (hs : s.st = .busy) (hq : s.cmd = some q) (hl : s.left = n + 1) (hr : s.rstLow (n + 1)) :
    ∃ t, stepN (n + 1) s = some t ∧ t.st = .done ∧ t.resp = some (execRequest Config.K q) := by
  induction n generalizing s with
  | zero =>
    obtain ⟨h0, -⟩ := State.rstLow_succ.mp hr
    rw [stepN_succ (step_completes h0 hs hl.le hq)]
    exact ⟨_, rfl, rfl, rfl⟩
  | succ n ih =>
    obtain ⟨h0, hr'⟩ := State.rstLow_succ.mp hr
    rw [stepN_succ (step_wait h0 hs (by omega))]
    exact ih hs hq (by simp [hl]) hr'

end Sys2Proof.Machine
end

section
/-! CERTIFICATE. The statements of the family 10_state: RESET, ACCEPT, COMPLETE, RETIRE, the status outputs, and the answer to an
accepted request. -/

namespace Sys2Proof.Proofs

open Sys2Proof Sys2Proof.Machine

/-- Settles O50: the ACCEPT edge puts LATENCY edges between the request and its COMPLETE; the waiting edges and the COMPLETE
edge are each an induction on the edges still to go. -/
theorem acceptedIsAnswered : Obligations.AcceptedIsAnswered := by
  intro s hs hv hrst
  obtain ⟨h0, hr⟩ := State.rstLow_succ.mp (show s.rstLow (Config.latency Config.K _ + 1) from
    fun k hk => hrst k (Nat.le_of_lt_succ hk))
  have hacc := step_accept hs hv h0
  refine ⟨Nat.succ_pos _, fun k hk hkl => ?_, ?_⟩
  · obtain ⟨j, rfl⟩ := Nat.exists_eq_add_of_le' hk
    rw [stepN_succ hacc]
    exact stepN_waits (s := s.accept Config.K s.edgeIn.req) rfl hkl (State.rstLow_mono hr (by omega))
  · rw [stepN_succ hacc]
    exact stepN_completes (s := s.accept Config.K s.edgeIn.req) rfl rfl rfl hr

/-- Settles O1: a RESET edge gives the reset state, but for the host's further moves and the edge count. -/
theorem resetState : Obligations.ResetState := by
  refine ⟨fun s h => ⟨s.doReset, step_rst h, by simp⟩, fun s s' h hi he => ?_, by simp [State.reset]⟩
  have h' : s'.edgeIn.rst = true := by rwa [State.edgeIn, ← hi]
  rw [step_rst h, step_rst h', s.doReset_eq, s'.doReset_eq, hi, he]

/-- Settles O4: ACCEPT is the only step that latches, and every step passes the host's next moves on. -/
theorem acceptStep : Obligations.AcceptStep := by
  refine ⟨fun s hs hv h => ⟨_, step_accept hs hv h, rfl, rfl⟩, fun s => by simp,
    fun s t hs h => step_ne_idle hs h, fun s t hs hv hst h => ?_⟩
  rw [step_edgeIn h]
  exact State.requestStable_of_ne_idle hs hv hst

/-- Settles O5: the COMPLETE step stores `Exec` of the latched request and reads nothing else of the state. -/
theorem responseIsExec : Obligations.ResponseIsExec :=
  ⟨fun _ _ h hs hl hq => ⟨_, step_completes h hs hl hq, rfl, rfl, rfl⟩,
    fun _ _ _ _ h hs hl hq => ⟨_, stepFor_completes h hs hl hq, rfl, rfl, rfl⟩⟩

/-- Settles O6: in DONE the step is RETIRE or holding everything, as `resp_ready` says. -/
theorem retireStep : Obligations.RetireStep :=
  ⟨fun _ hs hv h => ⟨_, step_retire hs hv h, rfl, rfl⟩, fun _ => by simp,
    fun _ hs hv h => ⟨_, step_hold_done hs hv h, hs, rfl⟩⟩

/-- Settles O7: the status ports are functions of the phase and of the response, and every operation completes with a response
that the operation alone fixes. -/
theorem statusOutputs : Obligations.StatusOutputs := by
  refine ⟨fun K s _ => ⟨s.reqReady_eq, s.respValid_eq⟩, fun K s r _ hr => ?_,
    fun i s s' => ⟨_, _, exec_eq i s, exec_eq i s', rfl, rfl⟩⟩
  simp [State.ports, State.portValue, State.respErr, hr]

end Sys2Proof.Proofs
end

section
/-! SUPPORT. A payload operand as a function of the lanes below its length, and its answer to a length above the capacity
(spec/20_memory.md R42). -/

namespace Sys2Proof.Machine

variable {K n : Nat} {d d' : Buffer}

theorem memRead_congr (h : ∀ k < n, Buffer.read d k = Buffer.read d' k) : memRead d 0 n = memRead d' 0 n :=
  List.map_congr_left fun k hk => by simpa using h k (List.mem_range.mp hk)

/-! ### Lanes at or above the length -/

theorem dataOperand_congr (h : ∀ k < n, Buffer.read d k = Buffer.read d' k) :
    dataOperand K n d = dataOperand K n d' := by
  rw [dataOperand, dataOperand, memRead_congr h]

theorem textOperand_congr (h : ∀ k < n, Buffer.read d k = Buffer.read d' k) :
    textOperand K n d = textOperand K n d' := by
  rw [textOperand, textOperand, memRead_congr h]

/-- TRUNC reads 20 lanes whatever the length, but only when the length is 20. -/
theorem digestOperand_congr (h : ∀ k < n, Buffer.read d k = Buffer.read d' k) :
    digestOperand n d = digestOperand n d' := by
  rcases digestOperand_cases n d with ⟨hn, e⟩ | ⟨rfl, e⟩
  · rw [e, digestOperand, if_pos hn]
  · rw [digestOperand, digestOperand, show Config.DIGEST_LEN = 20 from rfl, memRead_congr h]

theorem laneValue_above {len i : Nat} (buf : Option Buffer) (h : len ≤ i) : laneValue len buf i = none := by
  cases buf with
  | none => rfl
  | some b => exact if_neg h.not_gt

/-! ### A length above the capacity -/

/-- R173: the response an operation ends with when it raises an error, in the statements' words. -/
theorem Response.ofError_eq_errorResponse (e : Err) : Response.ofError e = errorResponse e.code := rfl

theorem dataOperand_above (d : Buffer) (h : Config.KEY_MAX K < n) : dataOperand K n d = .error .badLength := if_pos h

theorem textOperand_above (d : Buffer) (h : Config.TXT_MAX K < n) : textOperand K n d = .error .badLength := if_pos h

/-- A digest always fits, since `K >= 4` (R7): a length above the capacity is not 20. -/
theorem digestOperand_above (d : Buffer) (hK : 4 ≤ K) (h : Config.KEY_MAX K < n) :
    digestOperand n d = .error .badLength :=
  if_pos fun h20 => absurd h (by rw [h20, Config.KEY_MAX, Config.DIGEST_LEN]; omega)

end Sys2Proof.Machine
end

section
/-! CERTIFICATE. The statement of the family 20_memory: lanes at or above the length carry no value. -/

namespace Sys2Proof.Proofs

open Sys2Proof Sys2Proof.Machine

/-- Settles O20: every operation reads its buffer through its operand form alone, which depends on the lanes below the length
and raises BadLength above the capacity; a response lane is read through `laneValue`. -/
theorem lanesAboveLength : Obligations.LanesAboveLength := by
  refine ⟨fun K n d d' c g _ h => ?_, fun K n d d' w p g _ h => ?_,
    fun s k => ⟨laneValue_above _, laneValue_above _⟩, fun K n d c g hK h => ?_, fun K n d w p g _ h => ?_⟩
  · have hdata : dataOperand K n d = dataOperand K n d' := dataOperand_congr h
    have hdigest : digestOperand n d = digestOperand n d' := digestOperand_congr h
    simp only [opResult, opB32enc, opHmac, opTrunc, opHotp, hdata, hdigest, and_self]
  · have htext : textOperand K n d = textOperand K n d' := textOperand_congr h
    simp only [opResult, opB32dec, opTotp, htext, and_self]
  · have hdata := dataOperand_above d h
    have hdigest := digestOperand_above d hK h
    simp only [responseTo, opResult, opB32enc, opHmac, opTrunc, opHotp, hdata, hdigest, respond_error,
      Response.ofError_eq_errorResponse, Err.code, and_self]
  · have htext := textOperand_above d h
    simp only [responseTo, opResult, opB32dec, opTotp, htext, respond_error, Response.ofError_eq_errorResponse, Err.code,
      and_self]

end Sys2Proof.Proofs
end

section
/-! SUPPORT. Selecting an operation by `op` (spec/30_encoding.md R63 to R66), and byte order (R9). -/

namespace Sys2Proof

theorem Request.op_cases (q : Request) :
    q.op = 0 ∨ q.op = 1 ∨ q.op = 2 ∨ q.op = 3 ∨ q.op = 4 ∨ q.op = 5 ∨ q.op = 6 ∨ q.op = 7 :=
  (by decide : ∀ b : BitVec 3, b = 0 ∨ b = 1 ∨ b = 2 ∨ b = 3 ∨ b = 4 ∨ b = 5 ∨ b = 6 ∨ b = 7) q.op

/-- R63: the operation a request names, by the value of its op field. -/
theorem decode_eq (q : Request) : decode q =
    if q.op = 0 then .b32enc q.dataLen q.data else if q.op = 1 then .b32dec q.textLen q.text
    else if q.op = 2 then .hmac q.dataLen q.data q.ctr else if q.op = 3 then .trunc q.dataLen q.data q.digits
    else if q.op = 4 then .tstep q.now q.period else if q.op = 5 then .hotp q.dataLen q.data q.ctr q.digits
    else if q.op = 6 then .totp q.textLen q.text q.now q.period q.digits else .reserved7 := by
  rcases q.op_cases with h | h | h | h | h | h | h | h <;> simp [decode, h]

theorem decode_eq_reserved7_iff (q : Request) : decode q = .reserved7 ↔ q.op = 7 := by
  rw [decode_eq]
  rcases q.op_cases with h | h | h | h | h | h | h | h <;> simp [h]

/-- R66: the operation of a request depends on `op` and on the fields the operation reads. -/
theorem decode_congr {q q' : Request} (hop : q.op = q'.op)
    (hdata : (q.op = 0 ∨ q.op = 2 ∨ q.op = 3 ∨ q.op = 5) → q.dataLen = q'.dataLen ∧ q.data = q'.data)
    (htext : (q.op = 1 ∨ q.op = 6) → q.textLen = q'.textLen ∧ q.text = q'.text)
    (hctr : (q.op = 2 ∨ q.op = 5) → q.ctr = q'.ctr)
    (hdigits : (q.op = 3 ∨ q.op = 5 ∨ q.op = 6) → q.digits = q'.digits)
    (htime : (q.op = 4 ∨ q.op = 6) → q.now = q'.now ∧ q.period = q'.period) : decode q = decode q' := by
  rw [decode_eq q, decode_eq q', ← hop]
  split_ifs with h0 h1 h2 h3 h4 h5 h6
  · obtain ⟨hn, hd⟩ := hdata (.inl h0)
    rw [hn, hd]
  · obtain ⟨hn, ht⟩ := htext (.inl h1)
    rw [hn, ht]
  · obtain ⟨hn, hd⟩ := hdata (.inr (.inl h2))
    rw [hn, hd, hctr (.inl h2)]
  · obtain ⟨hn, hd⟩ := hdata (.inr (.inr (.inl h3)))
    rw [hn, hd, hdigits (.inl h3)]
  · obtain ⟨hw, hp⟩ := htime (.inl h4)
    rw [hw, hp]
  · obtain ⟨hn, hd⟩ := hdata (.inr (.inr (.inr h5)))
    rw [hn, hd, hctr (.inr h5), hdigits (.inr (.inl h5))]
  · obtain ⟨hn, ht⟩ := htext (.inr h6)
    obtain ⟨hw, hp⟩ := htime (.inr h6)
    rw [hn, ht, hw, hp, hdigits (.inr (.inr h6))]
  · rfl

/-- R7: the widths of the length fields at the default capacity. -/
theorem Request.lengths_of_wf_default {q : Request} (h : q.wf Config.K = true) : q.textLen ≤ 511 ∧ q.dataLen ≤ 255 := by
  obtain ⟨hd, ht⟩ := Config.widths_default
  simp only [Request.wf, textWf, dataWf, hd, ht, Bool.and_eq_true, decide_eq_true_eq] at h
  omega

theorem bytesBE_getD {n i : Nat} (v : Nat) (h : i < n) :
    (bytesBE v n).getD i 0 = BitVec.ofNat 8 (v >>> (8 * (n - 1 - i))) := by
  simp [bytesBE, h]

end Sys2Proof
end

section
/-! SUPPORT. What an operation's result can be (spec/30_encoding.md R64, R66): each operation is a chain of checks that ends in one
kind of response, and only its length check raises BadLength. -/

namespace Sys2Proof.Machine

/-! ### Chains of checks -/

section
variable {ε α β : Type} {x : Except ε α} {e : ε}

theorem exceptMap_eq_error_iff {f : α → β} : x.map f = .error e ↔ x = .error e := by
  cases x <;> simp [Except.map]

theorem exceptBind_eq_error_iff {f : α → Except ε β} (hf : ∀ a, f a ≠ .error e) :
    x.bind f = .error e ↔ x = .error e := by
  cases x <;> simp [Except.bind, hf]

end

section
variable (K n : Nat) (d : Buffer) (c : BitVec Config.CTR_W) (w : BitVec Config.NOW_W) (p : BitVec Config.PERIOD_W)
  (g : BitVec Config.DIGITS_W)

theorem opB32enc_eq : opB32enc K n d = (dataOperand K n d).map fun b => .ofText (b32Encode b) := by
  unfold opB32enc
  cases dataOperand K n d <;> rfl

theorem opB32dec_eq : opB32dec K n d = ((textOperand K n d).bind b32Decode).map .ofData := by
  unfold opB32dec
  rcases textOperand K n d with _ | t
  · rfl
  · simp only [Except.bind]
    cases b32Decode t <;> rfl

theorem opHmac_eq : opHmac K n d c =
    ((dataOperand K n d).bind checkKey).map fun key => .ofData (hmacSha1 key (counterBlock c.toNat)) := by
  unfold opHmac
  rcases dataOperand K n d with _ | b
  · rfl
  · simp only [Except.bind]
    cases checkKey b <;> rfl

theorem opTrunc_eq : opTrunc n d g =
    ((digestOperand n d).bind fun b => truncate b g.toNat).map fun ps => .ofTrunc ps.1 ps.2 := by
  unfold opTrunc
  rcases digestOperand n d with _ | b
  · rfl
  · simp only [Except.bind]
    cases truncate b g.toNat <;> rfl

theorem opTstep_eq : opTstep w p = (tStep w.toNat p.toNat).map .ofCounter := by
  unfold opTstep
  cases tStep w.toNat p.toNat <;> rfl

theorem opHotp_eq : opHotp K n d c g =
    ((dataOperand K n d).bind fun b => hotpCompute b c.toNat g.toNat).map .ofText := by
  unfold opHotp
  rcases dataOperand K n d with _ | b
  · rfl
  · simp only [Except.bind]
    cases hotpCompute b c.toNat g.toNat <;> rfl

theorem opTotp_eq : opTotp K n d w p g =
    ((textOperand K n d).bind fun t => (secretOf t).bind fun key =>
      (tStep w.toNat p.toNat).bind fun k => hotpCompute key k g.toNat).map .ofText := by
  unfold opTotp
  rcases textOperand K n d with _ | t
  · rfl
  · simp only [Except.bind]
    rcases secretOf t with _ | key
    · rfl
    · rcases tStep w.toNat p.toNat with _ | k
      · rfl
      · simp only
        cases hotpCompute key k g.toNat <;> rfl

end

/-! ### The registers of a success -/

/-- R63: a success in which exactly the result registers of operation `i` have a value. -/
def Response.succeedsFor (i : Instr) (r : Response) : Prop :=
  r.err = 0 ∧ r.rtextLen.isSome = writesText i ∧ r.rtext.isSome = writesText i ∧ r.rdataLen.isSome = writesData i ∧
    r.rdata.isSome = writesData i ∧ r.rval.isSome = writesRval i ∧ r.rctr.isSome = writesRctr i

variable {K : Nat} {i : Instr} {r : Response}

theorem succeedsFor_of_map {α : Type} {x : Except Err α} {f : α → Response} (hx : opResult K i = x.map f)
    (hf : ∀ a, (f a).succeedsFor i) (h : opResult K i = .ok r) : r.succeedsFor i := by
  rw [hx] at h
  cases x with
  | error => cases h
  | ok a => cases h; exact hf a

/-- R64: an operation that raises no error gives its own result registers a value and no other. -/
theorem succeedsFor_of_opResult_ok (h : opResult K i = .ok r) : r.succeedsFor i := by
  cases i with
  | b32enc n d => exact succeedsFor_of_map (opB32enc_eq K n d) (fun _ => ⟨rfl, rfl, rfl, rfl, rfl, rfl, rfl⟩) h
  | b32dec n t => exact succeedsFor_of_map (opB32dec_eq K n t) (fun _ => ⟨rfl, rfl, rfl, rfl, rfl, rfl, rfl⟩) h
  | hmac n d c => exact succeedsFor_of_map (opHmac_eq K n d c) (fun _ => ⟨rfl, rfl, rfl, rfl, rfl, rfl, rfl⟩) h
  | trunc n d g => exact succeedsFor_of_map (opTrunc_eq n d g) (fun _ => ⟨rfl, rfl, rfl, rfl, rfl, rfl, rfl⟩) h
  | tstep w p => exact succeedsFor_of_map (opTstep_eq w p) (fun _ => ⟨rfl, rfl, rfl, rfl, rfl, rfl, rfl⟩) h
  | hotp n d c g => exact succeedsFor_of_map (opHotp_eq K n d c g) (fun _ => ⟨rfl, rfl, rfl, rfl, rfl, rfl, rfl⟩) h
  | totp n t w p g => exact succeedsFor_of_map (opTotp_eq K n t w p g) (fun _ => ⟨rfl, rfl, rfl, rfl, rfl, rfl, rfl⟩) h
  | reserved7 => cases h

/-! ### The error a response reports -/

theorem Err.code_ne_zero (e : Err) : e.code ≠ 0 := by
  cases e <;> decide

theorem Err.code_injective : Function.Injective Err.code := by
  intro a b
  cases a <;> cases b <;> decide

/-- R64: a response reports an error exactly when the operation raises it. -/
theorem responseTo_err_eq_code_iff (e : Err) : (responseTo K i).err = e.code ↔ opResult K i = .error e := by
  rw [responseTo]
  cases h : opResult K i with
  | ok r =>
    obtain ⟨herr, -⟩ := succeedsFor_of_opResult_ok h
    simpa [herr] using e.code_ne_zero.symm
  | error e' => simp [Err.code_injective.eq_iff]

/-- R23: every operation completes, from every state, with its response. -/
theorem completesWith_responseTo (i : Instr) (s : State) : completesWith i s (responseTo Config.K i) :=
  ⟨_, exec_eq i s, rfl, rfl, rfl⟩

/-! ### BadLength -/

theorem dataOperand_eq_badLength_iff {n : Nat} {d : Buffer} :
    dataOperand K n d = .error .badLength ↔ Config.KEY_MAX K < n := by
  simp [dataOperand]

theorem textOperand_eq_badLength_iff {n : Nat} {d : Buffer} :
    textOperand K n d = .error .badLength ↔ Config.TXT_MAX K < n := by
  simp [textOperand]

theorem digestOperand_eq_badLength_iff {n : Nat} {d : Buffer} :
    digestOperand n d = .error .badLength ↔ n ≠ 20 := by
  simp [digestOperand]

theorem checkKey_ne_badLength (b : List Byte) : checkKey b ≠ .error .badLength := by
  rcases checkKey_cases b with ⟨-, h⟩ | ⟨-, h⟩ <;> simp [h]

theorem b32Decode_ne_badLength (t : List Byte) : b32Decode t ≠ .error .badLength := by
  rcases b32Decode_cases t with ⟨h, -⟩ | ⟨r, h, -⟩ <;> simp [h]

theorem secretOf_ne_badLength (t : List Byte) : secretOf t ≠ .error .badLength := by
  rcases b32Decode_cases t with ⟨h, -⟩ | ⟨r, h, -⟩ <;> simp [secretOf, h]

theorem tStep_ne_badLength (w p : Nat) : tStep w p ≠ .error .badLength := by
  rcases checkPeriod_cases p with ⟨-, h⟩ | ⟨-, h⟩ <;> simp [tStep, h]

theorem truncate_ne_badLength (d : List Byte) (n : Nat) : truncate d n ≠ .error .badLength := by
  rcases checkDigits_cases n with ⟨-, h⟩ | ⟨-, h⟩ <;> simp [truncate, h]

theorem hotpCompute_ne_badLength (b : List Byte) (c n : Nat) : hotpCompute b c n ≠ .error .badLength := by
  rcases hotpCompute_cases b c n with ⟨-, h⟩ | ⟨-, -, h⟩ | ⟨-, -, h⟩ <;> simp [h]

/-- R66: the length field an operation reads is above the capacity, or is not the length of a digest. -/
def lengthOutOfRange (K : Nat) : Instr → Prop
  | .b32enc n _ | .hmac n _ _ | .hotp n _ _ _ => Config.KEY_MAX K < n
  | .b32dec n _ | .totp n _ _ _ _ => Config.TXT_MAX K < n
  | .trunc n _ _ => n ≠ 20
  | .tstep _ _ | .reserved7 => False

/-- R66: an operation raises BadLength in its length check, and nowhere else. -/
theorem opResult_eq_badLength_iff : opResult K i = .error .badLength ↔ lengthOutOfRange K i := by
  cases i with
  | b32enc n d => rw [opResult, opB32enc_eq, exceptMap_eq_error_iff]; exact dataOperand_eq_badLength_iff
  | b32dec n t =>
    rw [opResult, opB32dec_eq, exceptMap_eq_error_iff, exceptBind_eq_error_iff b32Decode_ne_badLength]
    exact textOperand_eq_badLength_iff
  | hmac n d c =>
    rw [opResult, opHmac_eq, exceptMap_eq_error_iff, exceptBind_eq_error_iff checkKey_ne_badLength]
    exact dataOperand_eq_badLength_iff
  | trunc n d g =>
    rw [opResult, opTrunc_eq, exceptMap_eq_error_iff,
      exceptBind_eq_error_iff fun b => truncate_ne_badLength b _]
    exact digestOperand_eq_badLength_iff
  | tstep w p =>
    rw [opResult, opTstep_eq, exceptMap_eq_error_iff]
    exact iff_of_false (tStep_ne_badLength _ _) id
  | hotp n d c g =>
    rw [opResult, opHotp_eq, exceptMap_eq_error_iff,
      exceptBind_eq_error_iff fun b => hotpCompute_ne_badLength b _ _]
    exact dataOperand_eq_badLength_iff
  | totp n t w p g =>
    have hrest (key : List Byte) :
        ((tStep w.toNat p.toNat).bind fun k => hotpCompute key k g.toNat) ≠ .error .badLength :=
      mt (exceptBind_eq_error_iff fun k => hotpCompute_ne_badLength key k _).mp (tStep_ne_badLength _ _)
    rw [opResult, opTotp_eq, exceptMap_eq_error_iff, exceptBind_eq_error_iff fun t' =>
      mt (exceptBind_eq_error_iff hrest).mp (secretOf_ne_badLength t')]
    exact textOperand_eq_badLength_iff
  | reserved7 => exact iff_of_false nofun id

theorem lengthOutOfRange_decode_iff (q : Request) : lengthOutOfRange K (decode q) ↔
    ((q.op = 1 ∨ q.op = 6) ∧ Config.TXT_MAX K < q.textLen) ∨
    ((q.op = 0 ∨ q.op = 2 ∨ q.op = 5) ∧ Config.KEY_MAX K < q.dataLen) ∨ (q.op = 3 ∧ q.dataLen ≠ 20) := by
  rw [decode_eq]
  rcases q.op_cases with h | h | h | h | h | h | h | h <;> simp [h, lengthOutOfRange]

/-- R66: a request is answered with BadLength exactly when the length field its operation reads is out of range. -/
theorem execRequest_err_eq_seven_iff (q : Request) : (execRequest K q).err = 7 ↔
    ((q.op = 1 ∨ q.op = 6) ∧ Config.TXT_MAX K < q.textLen) ∨
    ((q.op = 0 ∨ q.op = 2 ∨ q.op = 5) ∧ Config.KEY_MAX K < q.dataLen) ∨ (q.op = 3 ∧ q.dataLen ≠ 20) :=
  (responseTo_err_eq_code_iff .badLength).trans (opResult_eq_badLength_iff.trans (lengthOutOfRange_decode_iff q))

end Sys2Proof.Machine
end

section
/-! SUPPORT. The alphabet of Base32 (spec/30_encoding.md R68) and its inverse (R92). -/

namespace Sys2Proof.Machine

theorem b32Char_letter : ∀ i < 26, b32Char i = BitVec.ofNat 8 (0x41 + i) := by decide

theorem b32Char_digit : ∀ i < 6, b32Char (26 + i) = BitVec.ofNat 8 (0x32 + i) := by decide

theorem b32Index_b32Char : ∀ i < 32, b32Index (b32Char i) = some i := by decide

/-- R92: the two ranges of characters that have an index are the two of the alphabet. -/
theorem b32Char_of_b32Index {c : Byte} {i : Nat} (h : b32Index c = some i) : i < 32 ∧ b32Char i = c := by
  unfold b32Index at h
  split at h
  next hc =>
    obtain rfl := Option.some.inj h
    refine ⟨by omega, ?_⟩
    rw [b32Char_letter _ (by omega), Nat.add_sub_cancel' hc.1, BitVec.ofNat_toNat, BitVec.setWidth_eq]
  next =>
    split at h
    next hc =>
      obtain rfl := Option.some.inj h
      refine ⟨by omega, ?_⟩
      rw [Nat.add_comm, b32Char_digit _ (by omega), Nat.add_sub_cancel' hc.1, BitVec.ofNat_toNat, BitVec.setWidth_eq]
    next => cases h

theorem b32Index_eq_some_iff {c : Byte} {i : Nat} : b32Index c = some i ↔ i < 32 ∧ b32Char i = c :=
  ⟨b32Char_of_b32Index, fun ⟨hi, hc⟩ => hc ▸ b32Index_b32Char i hi⟩

theorem b32Alphabet_getElem?_eq_some_iff {c : Byte} {i : Nat} :
    b32Alphabet[i]? = some c ↔ i < 32 ∧ b32Char i = c := by
  rw [List.getElem?_eq_some_iff, b32Char]
  constructor
  · rintro ⟨hi, hc⟩
    exact ⟨hi, (List.getD_eq_getElem _ _ hi).trans hc⟩
  · rintro ⟨hi, hc⟩
    exact ⟨hi, (List.getD_eq_getElem _ _ hi).symm.trans hc⟩

end Sys2Proof.Machine
end

section
/-! CERTIFICATE. The statements of the family 30_encoding: the dispatch on `op`, the fields an operation does not read, the reserved
code, the alphabet, and the counter block. -/

namespace Sys2Proof.Proofs

open Sys2Proof Sys2Proof.Machine

/-- Settles O16: `op` selects the operation, and an operation's result is an error or a success with its own registers. -/
theorem execDispatch : Obligations.ExecDispatch := by
  refine ⟨decode_eq, fun K i _ => ⟨_, rfl, ?_⟩⟩
  rw [responseTo]
  cases h : opResult K i with
  | error e => exact .inl ⟨e.code_ne_zero, rfl⟩
  | ok r => exact .inr (succeedsFor_of_opResult_ok h)

/-- Settles O21: `decode` keeps nothing of the fields its operation does not read, and BadLength comes from the length check
alone; at the default capacity the widths of the length fields give the upper ends. -/
theorem unreadFieldsIgnored : Obligations.UnreadFieldsIgnored := by
  refine ⟨fun K q q' _ hop hdata htext hctr hdigits htime => ?_, fun K q _ => execRequest_err_eq_seven_iff q,
    fun q hq => ?_⟩
  · rw [execRequest, execRequest, decode_congr hop hdata htext hctr hdigits htime]
  · obtain ⟨ht, hd⟩ := Request.lengths_of_wf_default hq
    have htext : Config.TXT_MAX Config.K < q.textLen ↔ 257 ≤ q.textLen ∧ q.textLen ≤ 511 := by
      rw [Config.TXT_MAX, Config.K]
      omega
    have hdata : Config.KEY_MAX Config.K < q.dataLen ↔ 161 ≤ q.dataLen ∧ q.dataLen ≤ 255 := by
      rw [Config.KEY_MAX, Config.K]
      omega
    rw [execRequest_err_eq_seven_iff, htext, hdata]

/-- Settles O15: `op = 7` is decoded as the reserved operation, whose response is IllegalOp. -/
theorem reservedResult : Obligations.ReservedResult := by
  have hres (s : State) : completesWith .reserved7 s (errorResponse 6) := completesWith_responseTo .reserved7 s
  refine ⟨decode_eq_reserved7_iff, fun q s h => ?_, hres⟩
  rw [(decode_eq_reserved7_iff q).mpr h]
  exact hres s

/-- Settles O30: `b32Index` and the alphabet say the same of a character and a position, both being `b32Char`. -/
theorem alphabet : Obligations.Alphabet :=
  ⟨rfl, fun _ _ => b32Index_eq_some_iff.trans b32Alphabet_getElem?_eq_some_iff.symm, b32Char_letter, b32Char_digit,
    by decide⟩

/-- Settles O38: byte `i` of 8 big-endian bytes is the counter shifted down by `8 * (7 - i)` bits. -/
protected theorem counterBlock : Obligations.CounterBlock :=
  ⟨fun c => ⟨length_counterBlock _, fun _ hi => bytesBE_getD c.toNat hi⟩, rfl, rfl⟩

end Sys2Proof.Proofs
end

section
/-! SUPPORT. Case folding and the padding strip (spec/40_base32.md R90, R91). -/

namespace Sys2Proof.Machine

/-! ### Case folding -/

theorem toNat_upper_of_lower {c : Byte} (h : 0x61 ≤ c.toNat ∧ c.toNat ≤ 0x7A) : (upper c).toNat = c.toNat - 0x20 := by
  rw [upper, if_pos h]
  bv_omega

theorem upper_of_not_lower {c : Byte} (h : ¬(0x61 ≤ c.toNat ∧ c.toNat ≤ 0x7A)) : upper c = c := if_neg h

theorem upper_eq_ite (c : Byte) :
    upper c = if 0x61 ≤ c.toNat ∧ c.toNat ≤ 0x7A then BitVec.ofNat 8 (c.toNat - 0x20) else c := by
  split
  next h => rw [← toNat_upper_of_lower h, BitVec.ofNat_toNat, BitVec.setWidth_eq]
  next h => exact upper_of_not_lower h

/-- A folded letter is an upper-case letter, which folding leaves alone. -/
theorem upper_upper (c : Byte) : upper (upper c) = upper c := by
  by_cases h : 0x61 ≤ c.toNat ∧ c.toNat ≤ 0x7A
  · exact upper_of_not_lower (by rw [toNat_upper_of_lower h]; omega)
  · rw [upper_of_not_lower h, upper_of_not_lower h]

/-- R91: folding neither makes nor removes a padding character. -/
theorem upper_eq_padChar_iff {c : Byte} : upper c = padChar ↔ c = padChar := by
  by_cases h : 0x61 ≤ c.toNat ∧ c.toNat ≤ 0x7A
  · have hne (x : Byte) (hx : 0x41 ≤ x.toNat) : x ≠ padChar := by rintro rfl; exact absurd hx (by decide)
    exact iff_of_false (hne _ (by rw [toNat_upper_of_lower h]; omega)) (hne _ (by omega))
  · rw [upper_of_not_lower h]

theorem foldStrip_map_upper (t : List Byte) : foldStrip (t.map upper) = foldStrip t := by
  rw [foldStrip, foldStrip, List.map_map, funext (f := upper ∘ upper) upper_upper]

/-- R90: B32Decode sees its text folded only. -/
theorem b32Decode_map_upper (t : List Byte) : b32Decode (t.map upper) = b32Decode t := by
  rw [b32Decode, b32Decode, foldStrip_map_upper]

/-! ### The padding strip -/

/-- The characters StripPad removes from the end. -/
def isPad (c : Byte) : Bool := decide (c = padChar)

@[simp] theorem isPad_iff {c : Byte} : isPad c = true ↔ c = padChar := decide_eq_true_iff

theorem isPad_upper (c : Byte) : isPad (upper c) = isPad c := decide_eq_decide.mpr upper_eq_padChar_iff

theorem stripPad_eq_rdropWhile (t : List Byte) : stripPad t = t.rdropWhile isPad := rfl

/-- What StripPad removes is a number of padding characters. -/
theorem exists_eq_stripPad_append (t : List Byte) : ∃ k, t = stripPad t ++ List.replicate k padChar := by
  have hpad : t.rtakeWhile isPad = List.replicate (t.rtakeWhile isPad).length padChar :=
    List.eq_replicate_length.mpr fun c hc => isPad_iff.mp (List.mem_rtakeWhile_imp hc)
  exact ⟨_, by rw [← hpad, stripPad_eq_rdropWhile, List.rdropWhile_append_rtakeWhile]⟩

theorem getLast?_stripPad_ne (t : List Byte) : (stripPad t).getLast? ≠ some padChar := by
  intro h
  obtain ⟨hne, hlast⟩ := List.mem_getLast?_eq_getLast h
  exact List.rdropWhile_last_not _ _ hne (isPad_iff.mpr hlast.symm)

theorem stripPad_append_replicate (t : List Byte) (k : Nat) : stripPad (t ++ List.replicate k padChar) = stripPad t := by
  induction k with
  | zero => rw [List.replicate_zero, List.append_nil]
  | succ k ih =>
    rw [List.replicate_succ', ← List.append_assoc, ← ih]
    exact List.rdropWhile_concat_pos isPad _ padChar (isPad_iff.mpr rfl)

theorem stripPad_replicate (k : Nat) : stripPad (List.replicate k padChar) = [] := stripPad_append_replicate [] k

theorem stripPad_map_upper (t : List Byte) : stripPad (t.map upper) = (stripPad t).map upper := by
  rw [stripPad_eq_rdropWhile, stripPad_eq_rdropWhile, List.rdropWhile, List.rdropWhile, ← List.map_reverse,
    List.dropWhile_map, List.map_reverse, show isPad ∘ upper = isPad from funext isPad_upper]

end Sys2Proof.Machine
end

section
/-! SUPPORT. The loop of B32Decode in closed form (spec/40_base32.md R94): the values read so far are one number in base 32, and
the rolling buffer holds the bits of it that no byte put out has taken. -/

namespace Sys2Proof.Machine

/-! ### Digits read as one number -/

theorem valueOf_concat (base : Nat) (ds : List Nat) (d : Nat) : valueOf base (ds ++ [d]) = valueOf base ds * base + d := by
  simp [valueOf]

/-- R43: dividing by a power of two per bit of the last digits leaves the number of the digits before them. -/
theorem valueOf_append_div {us vs : List Nat} (h : ∀ v ∈ vs, v < 32) :
    valueOf 32 (us ++ vs) / 2 ^ (5 * vs.length) = valueOf 32 us := by
  induction vs generalizing us with
  | nil => simp
  | cons v vs ih =>
    obtain ⟨hv, hvs⟩ := List.forall_mem_cons.mp h
    rw [List.append_cons, List.length_cons, Nat.mul_succ, Nat.pow_add, ← Nat.div_div_eq_div_mul, ih hvs, valueOf_concat]
    omega

/-! ### The loop -/

section
variable {us : List Nat} {v nbits : Nat}

/-- The buffer after the shift and the or: the low bits of the number of the digits read. -/
theorem shiftLeft_or_valueOf (hv : v < 32) :
    ((valueOf 32 us % 2 ^ nbits) <<< 5) ||| v = valueOf 32 (us ++ [v]) % 2 ^ (nbits + 5) := by
  have hdiv : (valueOf 32 us * 32 + v) / 2 ^ 5 = valueOf 32 us := by omega
  rw [← Nat.shiftLeft_add_eq_or_of_lt (b := v) (i := 5) hv, Nat.shiftLeft_eq, valueOf_concat, Nat.add_comm nbits,
    Nat.pow_add, Nat.mod_mul, hdiv]
  omega

/-- Fewer than 8 bits after a character: nothing is put out. -/
theorem decodeLoop_cons_short (hv : v < 32) (vs : List Nat) (h : nbits < 3) :
    decodeLoop (v :: vs) (valueOf 32 us % 2 ^ nbits) nbits =
      decodeLoop vs (valueOf 32 (us ++ [v]) % 2 ^ (nbits + 5)) (nbits + 5) := by
  rw [decodeLoop, shiftLeft_or_valueOf hv]
  exact if_neg (by omega)

/-- At least 8 bits after a character: the top 8 go out, the others stay. -/
theorem decodeLoop_cons_full (hv : v < 32) (vs : List Nat) :
    decodeLoop (v :: vs) (valueOf 32 us % 2 ^ (nbits + 3)) (nbits + 3) =
      BitVec.ofNat 8 (valueOf 32 (us ++ [v]) / 2 ^ nbits) :: decodeLoop vs (valueOf 32 (us ++ [v]) % 2 ^ nbits) nbits := by
  have hbyte (x : Nat) : BitVec.ofNat 8 ((x % 2 ^ (nbits + 8)) >>> nbits &&& 0xFF) = BitVec.ofNat 8 (x / 2 ^ nbits) := by
    apply BitVec.eq_of_toNat_eq
    rw [Nat.shiftRight_eq_div_pow, Nat.pow_add, Nat.mod_mul_right_div_self, Nat.and_two_pow_sub_one_eq_mod _ 8]
    simp
  have hrest (x : Nat) : x % 2 ^ (nbits + 8) &&& (1 <<< nbits - 1) = x % 2 ^ nbits := by
    rw [Nat.one_shiftLeft, Nat.and_two_pow_sub_one_eq_mod, Nat.pow_add, Nat.mod_mul_right_mod]
  rw [decodeLoop, shiftLeft_or_valueOf hv]
  simp only [Nat.add_assoc, Nat.reduceAdd, Nat.add_sub_cancel, if_pos (Nat.le_add_left 8 nbits), hbyte, hrest]

/-- R94: byte `j` ends `8 * (j + 1)` bits from the left of the string of the `nbits` bits in the buffer and the bits of the
characters to come; the bits of `us` before it have left the buffer. -/
theorem decodeLoop_eq_map {vs : List Nat} (hvs : ∀ v ∈ vs, v < 32) (hn : nbits < 8) :
    decodeLoop vs (valueOf 32 us % 2 ^ nbits) nbits =
      (List.range ((nbits + 5 * vs.length) / 8)).map fun j =>
        BitVec.ofNat 8 (valueOf 32 (us ++ vs) / 2 ^ (nbits + 5 * vs.length - 8 * (j + 1))) := by
  induction vs generalizing us nbits with
  | nil => simp [decodeLoop, Nat.div_eq_of_lt hn]
  | cons v vs ih =>
    obtain ⟨hv, hvs⟩ := List.forall_mem_cons.mp hvs
    rw [List.append_cons, List.length_cons]
    by_cases h : nbits < 3
    · rw [decodeLoop_cons_short hv vs h, ih hvs (by omega), Nat.add_assoc, Nat.mul_succ, Nat.add_comm 5]
    · obtain ⟨m, rfl⟩ := Nat.exists_eq_add_of_le' (Nat.le_of_not_lt h)
      have hlen : m + 3 + 5 * (vs.length + 1) = m + 5 * vs.length + 8 := by omega
      have hfirst : valueOf 32 (us ++ [v] ++ vs) / 2 ^ (m + 5 * vs.length) = valueOf 32 (us ++ [v]) / 2 ^ m := by
        rw [Nat.add_comm m, Nat.pow_add, ← Nat.div_div_eq_div_mul, valueOf_append_div hvs]
      rw [decodeLoop_cons_full hv vs, ih hvs (by omega), hlen, Nat.add_div_right _ (by omega), List.range_succ_eq_map,
        List.map_cons, List.map_map, Nat.zero_add, Nat.mul_one, Nat.add_sub_cancel, hfirst]
      refine congrArg _ (List.map_congr_left fun j _ => ?_)
      rw [Function.comp, Nat.succ_eq_add_one, Nat.mul_succ 8 (j + 1), Nat.add_sub_add_right]

end
end Sys2Proof.Machine
end

section
/-! SUPPORT. The whole of B32Decode in closed form (spec/40_base32.md R93, R94), and the responses of B32DEC and B32ENC (R97,
R102). -/

namespace Sys2Proof.Machine

theorem b32Decode_eq_error_iff (t : List Byte) :
    b32Decode t = .error .invalidEncoding ↔ ∃ c ∈ foldStrip t, b32Index c = none := by
  have hany : (foldStrip t).any (fun c => (b32Index c).isNone) = true ↔ ∃ c ∈ foldStrip t, b32Index c = none := by simp
  rcases b32Decode_cases t with ⟨h, hbad⟩ | ⟨r, h, hgood, -⟩
  · exact iff_of_true h (hany.mp hbad)
  · exact iff_of_false (by simp [h]) fun hbad => by simp [hany.mpr hbad] at hgood

theorem lt_of_mem_filterMap_b32Index {s : List Byte} {v : Nat} (hv : v ∈ s.filterMap b32Index) : v < 32 := by
  obtain ⟨c, -, hc⟩ := List.mem_filterMap.mp hv
  exact (b32Char_of_b32Index hc).1

/-- R94: the bytes of a text that decodes. -/
theorem eq_map_of_b32Decode_ok {t r : List Byte} (h : b32Decode t = .ok r) :
    r = (List.range (5 * (foldStrip t).length / 8)).map fun j =>
      BitVec.ofNat 8 (valueOf 32 ((foldStrip t).filterMap b32Index) / 2 ^ (5 * (foldStrip t).length - 8 * (j + 1))) := by
  rcases b32Decode_cases t with ⟨herr, -⟩ | ⟨r', -, hgood, -⟩
  · cases herr.symm.trans h
  · have hloop := decodeLoop_eq_map (us := []) (vs := (foldStrip t).filterMap b32Index) (nbits := 0)
      (fun _ => lt_of_mem_filterMap_b32Index) (by omega)
    rw [length_filterMap_b32Index hgood, Nat.zero_add, List.nil_append] at hloop
    rw [b32Decode, hgood] at h
    exact (Except.ok.inj h).symm.trans hloop

/-! ### The operations -/

section
variable {K n : Nat} {d : Buffer} {r : List Byte}

theorem responseTo_b32enc_above (h : Config.KEY_MAX K < n) : responseTo K (.b32enc n d) = errorResponse 7 := by
  rw [responseTo, opResult, opB32enc_eq, dataOperand_above d h]
  rfl

theorem responseTo_b32enc_of_le (h : n ≤ Config.KEY_MAX K) :
    responseTo K (.b32enc n d) = textResponse (b32Encode (memRead d 0 n)) := by
  rw [responseTo, opResult, opB32enc_eq, dataOperand, if_neg h.not_gt]
  rfl

theorem responseTo_b32dec_above (h : Config.TXT_MAX K < n) : responseTo K (.b32dec n d) = errorResponse 7 := by
  rw [responseTo, opResult, opB32dec_eq, textOperand_above d h]
  rfl

/-- R97: within the capacity B32DEC answers with what B32Decode gives, an empty sequence included. -/
theorem responseTo_b32dec_of_le (h : n ≤ Config.TXT_MAX K) :
    responseTo K (.b32dec n d) = respond ((b32Decode (memRead d 0 n)).map .ofData) := by
  rw [responseTo, opResult, opB32dec_eq, textOperand, if_neg h.not_gt]
  rfl

theorem responseTo_b32dec_undecodable (h : n ≤ Config.TXT_MAX K)
    (hd : b32Decode (memRead d 0 n) = .error .invalidEncoding) : responseTo K (.b32dec n d) = errorResponse 1 := by
  rw [responseTo_b32dec_of_le h, hd]
  rfl

theorem responseTo_b32dec_ok (h : n ≤ Config.TXT_MAX K) (hd : b32Decode (memRead d 0 n) = .ok r) :
    responseTo K (.b32dec n d) = dataResponse r := by
  rw [responseTo_b32dec_of_le h, hd]
  rfl

end

end Sys2Proof.Machine
end

section
/-! CERTIFICATE. The statements of the family 40_base32: case folding and the padding strip, the bits of a decoding, and the
two operations. -/

namespace Sys2Proof.Proofs

open Sys2Proof Sys2Proof.Machine

/-- Settles O25: B32Decode folds its text first, refuses it when a character has no value, and else runs the loop, whose bytes
are those of the values' bit string. -/
theorem decodeBits : Obligations.DecodeBits := by
  refine ⟨fun c => ⟨toNat_upper_of_lower, fun h => upper_of_not_lower (by omega)⟩, fun t => ?_,
    fun t => ⟨b32Decode_eq_error_iff t, fun r hr => ?_⟩⟩
  · simp only [← upper_eq_ite]
    exact (b32Decode_map_upper t).symm
  · obtain rfl := eq_map_of_b32Decode_ok hr
    exact ⟨by simp, fun j hj => by simp⟩

/-- Settles O24: StripPad is Mathlib's `List.rdropWhile` of the padding character, which folding keeps. -/
theorem stripPadLaw : Obligations.StripPadLaw := by
  refine ⟨fun t => ?_, stripPad_append_replicate, stripPad_replicate, stripPad_map_upper⟩
  obtain ⟨k, hk⟩ := exists_eq_stripPad_append t
  exact ⟨k, hk, getLast?_stripPad_ne t⟩

/-- Settles O8: every operation completes with its response; B32ENC's is BadLength above the capacity, else an encoding. -/
theorem b32encResult : Obligations.B32encResult := by
  intro n d s
  have hdone := completesWith_responseTo (.b32enc n d) s
  split
  next h => rwa [responseTo_b32enc_above h] at hdone
  next h => rwa [responseTo_b32enc_of_le (Nat.le_of_not_lt h)] at hdone

/-- Settles O9: every operation completes with its response; B32DEC's is BadLength above the capacity, else what B32Decode
gives, whose only error is InvalidEncoding. -/
theorem b32decResult : Obligations.B32decResult := by
  intro n d s
  have hdone := completesWith_responseTo (.b32dec n d) s
  rcases Nat.lt_or_ge (Config.TXT_MAX Config.K) n with h | h
  · rwa [if_pos h, ← responseTo_b32dec_above h]
  · rw [if_neg h.not_gt]
    rcases b32Decode_cases (memRead d 0 n) with ⟨hd, -⟩ | ⟨r, hd, -⟩
    · simpa only [hd, responseTo_b32dec_undecodable h hd] using hdone
    · simpa only [hd, responseTo_b32dec_ok h hd] using hdone

end Sys2Proof.Proofs
end

section
/-! SUPPORT. SHA-1 rule by rule (spec/41_hmac_sha1.md R8, R111 to R115): the rotation as the library's, the padded length, the
schedule's recurrence, and the rounds and the blocks as sequences that grow by one at their end. -/

namespace Sys2Proof.Machine

/-- R8: the rotation is the library's. -/
theorem rotl32_eq_rotateLeft (x : Word32) {n : Nat} (h : n < 32) : rotl32 x n = x.rotateLeft n := by
  rw [BitVec.rotateLeft_def, Nat.mod_eq_of_lt h, rotl32]

/-! ### Padding -/

@[simp] theorem length_sha1Pad (m : List Byte) :
    (sha1Pad m).length = m.length + 1 + (55 + 64 - m.length % 64) % 64 + 8 := by
  simp [sha1Pad]; omega

/-! ### The message schedule -/

theorem length_extendSchedule (n : Nat) (w : List Word32) : (extendSchedule n w).length = w.length + n := by
  induction n generalizing w with
  | zero => rfl
  | succ n ih => rw [extendSchedule, ih, List.length_cons]; omega

theorem suffix_extendSchedule (n : Nat) (w : List Word32) : w <:+ extendSchedule n w := by
  induction n generalizing w with
  | zero => exact List.suffix_refl w
  | succ n ih => exact (List.suffix_cons _ w).trans (ih _)

/-- The words a schedule was extended from stay at its beginning. -/
theorem getD_reverse_extendSchedule (n : Nat) {w : List Word32} {t : Nat} (h : t < w.length) :
    (extendSchedule n w).reverse.getD t 0 = w.getD (w.length - 1 - t) 0 := by
  obtain ⟨u, hu⟩ := suffix_extendSchedule n w
  rw [← hu, List.reverse_append, List.getD_append _ _ _ _ (by simpa using h), List.getD_reverse _ h]

/-- R112: each word added to a schedule of at least 16 words follows the recurrence. -/
theorem extendSchedule_recurrence (n : Nat) {w : List Word32} {t : Nat} (hw : 16 ≤ w.length) (ht : w.length ≤ t)
    (htn : t < w.length + n) : (extendSchedule n w).reverse.getD t 0 =
      rotl32 ((extendSchedule n w).reverse.getD (t - 3) 0 ^^^ (extendSchedule n w).reverse.getD (t - 8) 0
        ^^^ (extendSchedule n w).reverse.getD (t - 14) 0 ^^^ (extendSchedule n w).reverse.getD (t - 16) 0) 1 := by
  induction n generalizing w with
  | zero => omega
  | succ n ih =>
    rcases ht.eq_or_lt with rfl | hlt
    · have hback (k : Nat) (hk : k < 16) :
          (extendSchedule (n + 1) w).reverse.getD (w.length - (k + 1)) 0 = w.getD k 0 := by
        rw [getD_reverse_extendSchedule _ (by omega), show w.length - 1 - (w.length - (k + 1)) = k by omega]
      rw [hback 2 (by omega), hback 7 (by omega), hback 13 (by omega), hback 15 (by omega), extendSchedule,
        getD_reverse_extendSchedule n (by simp), List.length_cons, Nat.add_sub_cancel, Nat.sub_self, List.getD_cons_zero]
    · exact ih (by simp; omega) hlt (by simp; omega)

@[simp] theorem length_schedule16 (blk : List Byte) : (schedule16 blk).length = 16 := by simp [schedule16]

@[simp] theorem length_schedule (blk : List Byte) : (schedule blk).length = 80 := by
  simp [schedule, length_extendSchedule]

/-- R112: the first 16 words are those of the block. -/
theorem schedule_getD_of_lt (blk : List Byte) {t : Nat} (h : t < 16) :
    (schedule blk).getD t 0 = BitVec.ofNat 32 (be32 (blk.drop (4 * t))) := by
  rw [schedule, getD_reverse_extendSchedule 64 (by simpa using h), ← List.getD_reverse _ (by simpa using h)]
  simp [schedule16, h]

/-- R112: the later words, each from four words before it. -/
theorem schedule_getD_of_ge (blk : List Byte) {t : Nat} (h16 : 16 ≤ t) (h80 : t < 80) :
    (schedule blk).getD t 0 =
      rotl32 ((schedule blk).getD (t - 3) 0 ^^^ (schedule blk).getD (t - 8) 0 ^^^ (schedule blk).getD (t - 14) 0
        ^^^ (schedule blk).getD (t - 16) 0) 1 :=
  extendSchedule_recurrence 64 (by simp) (by simpa using h16) (by simpa using h80)

theorem be32_drop (b : List Byte) (k : Nat) : be32 (b.drop k) =
    (b.getD k 0).toNat * 2 ^ 24 + (b.getD (k + 1) 0).toNat * 2 ^ 16 + (b.getD (k + 2) 0).toNat * 2 ^ 8
      + (b.getD (k + 3) 0).toNat := by
  simp [be32, List.getD_eq_getElem?_getD]

/-! ### The compression -/

theorem sha1Round_eq_rotateLeft (t : Nat) (w : Word32) (h : Chain) : sha1Round t w h =
    ⟨h.a.rotateLeft 5 + sha1F t h.b h.c h.d + h.e + sha1K t + w, h.a, h.b.rotateLeft 30, h.c, h.d⟩ := by
  rw [sha1Round, rotl32_eq_rotateLeft _ (by omega), rotl32_eq_rotateLeft _ (by omega)]

theorem sha1Rounds_append (u v : List Word32) (t : Nat) (h : Chain) :
    sha1Rounds t (u ++ v) h = sha1Rounds (t + u.length) v (sha1Rounds t u h) := by
  induction u generalizing t h with
  | nil => rfl
  | cons w u ih => rw [List.cons_append, sha1Rounds, ih, List.length_cons, sha1Rounds, Nat.add_right_comm, Nat.add_assoc]

/-- The rounds over the first `t + 1` words end with round `t`. -/
theorem sha1Rounds_take_succ {ws : List Word32} {t : Nat} (ht : t < ws.length) (h : Chain) :
    sha1Rounds 0 (ws.take (t + 1)) h = sha1Round t (ws.getD t 0) (sha1Rounds 0 (ws.take t) h) := by
  rw [List.take_succ_eq_append_getElem ht, sha1Rounds_append, List.length_take_of_le ht.le, List.getD_eq_getElem _ _ ht,
    Nat.zero_add, sha1Rounds, sha1Rounds]

/-- R113: compression adds the working variables after the 80th round to the chaining values. -/
theorem sha1Compress_eq (h : Chain) (blk : List Byte) :
    sha1Compress h blk =
      let r := sha1Rounds 0 ((schedule blk).take 80) h
      ⟨h.a + r.a, h.b + r.b, h.c + r.c, h.d + r.d, h.e + r.e⟩ := by
  rw [List.take_of_length_le (length_schedule blk).le, sha1Compress]

/-! ### The blocks and the digest -/

/-- The loop's equation, taken from `eq_def`: by `rfl` the kernel would run the compression to compare its two sides. -/
theorem sha1Blocks_succ_first (n : Nat) (p : List Byte) (h : Chain) :
    sha1Blocks (n + 1) p h = sha1Blocks n (p.drop 64) (sha1Compress h (p.take 64)) := by
  rw [sha1Blocks.eq_def]

/-- R114: the compressions of `n + 1` blocks end with that of block `n`. -/
theorem sha1Blocks_succ_last (n : Nat) (p : List Byte) (h : Chain) :
    sha1Blocks (n + 1) p h = sha1Compress (sha1Blocks n p h) ((p.drop (64 * n)).take 64) := by
  induction n generalizing p h with
  | zero => rfl
  | succ n ih => rw [sha1Blocks_succ_first, ih, List.drop_drop, sha1Blocks_succ_first, Nat.mul_succ, Nat.add_comm 64]

theorem bytesBE_append_getD_left {n i : Nat} (v : Nat) (l : List Byte) (h : i < n) :
    (bytesBE v n ++ l).getD i 0 = BitVec.ofNat 8 (v >>> (8 * (n - 1 - i))) := by
  rw [List.getD_append _ _ _ _ (by simpa using h), bytesBE_getD v h]

theorem bytesBE_append_getD_right (v n i : Nat) (l : List Byte) : (bytesBE v n ++ l).getD (n + i) 0 = l.getD i 0 := by
  rw [List.getD_append_right _ _ _ _ (by simp), length_bytesBE, Nat.add_sub_cancel_left]

end Sys2Proof.Machine
end

section
/-! SUPPORT. The keyed hash through its key block (spec/41_hmac_sha1.md R116, R120), and the response of HMAC (R118). -/

namespace Sys2Proof.Machine

/-! ### The key block -/

@[simp] theorem length_hmacKeyBlock (key : List Byte) : (hmacKeyBlock key).length = 64 := by
  unfold hmacKeyBlock
  split
  · simp
  · simp; omega

theorem hmacKeyBlock_of_le {key : List Byte} (h : key.length ≤ 64) :
    hmacKeyBlock key = key ++ List.replicate (64 - key.length) 0x00 := by
  rw [hmacKeyBlock, if_neg h.not_gt]

/-- R120: a long key has the key block of its hash. -/
theorem hmacKeyBlock_of_long {key : List Byte} (h : 64 < key.length) : hmacKeyBlock key = hmacKeyBlock (sha1 key) := by
  rw [hmacKeyBlock_of_le (by simp : (sha1 key).length ≤ 64), hmacKeyBlock, if_pos h]

/-- R120: a key of 64 bytes is its own key block. -/
theorem hmacKeyBlock_of_length_eq {key : List Byte} (h : key.length = 64) : hmacKeyBlock key = key := by
  rw [hmacKeyBlock_of_le h.le, h, Nat.sub_self, List.replicate_zero, List.append_nil]

/-- R116: the keyed hash reads its key through the key block alone. -/
theorem hmacSha1_eq (key msg : List Byte) : hmacSha1 key msg =
    sha1 ((hmacKeyBlock key).map (fun x => x ^^^ 0x5C) ++
      sha1 ((hmacKeyBlock key).map (fun x => x ^^^ 0x36) ++ msg)) := rfl

/-! ### The operation -/

section
variable {K n : Nat} {d : Buffer} (c : BitVec Config.CTR_W)

theorem responseTo_hmac_above (h : Config.KEY_MAX K < n) : responseTo K (.hmac n d c) = errorResponse 7 := by
  rw [responseTo, opResult, opHmac_eq, dataOperand_above d h]
  rfl

theorem responseTo_hmac_of_le (h : n ≤ Config.KEY_MAX K) : responseTo K (.hmac n d c) =
    respond ((checkKey (memRead d 0 n)).map fun key => .ofData (hmacSha1 key (counterBlock c.toNat))) := by
  rw [responseTo, opResult, opHmac_eq, dataOperand, if_neg h.not_gt]
  rfl

theorem responseTo_hmac_empty : responseTo K (.hmac 0 d c) = errorResponse 2 := by
  rw [responseTo_hmac_of_le c (Nat.zero_le _)]
  rfl

theorem responseTo_hmac_ok (h : n ≤ Config.KEY_MAX K) (h0 : n ≠ 0) : responseTo K (.hmac n d c) =
    dataResponse (hmacSha1 (memRead d 0 n) (counterBlock c.toNat)) := by
  rw [responseTo_hmac_of_le c h, checkKey, if_neg (by simpa using h0)]
  rfl

end

end Sys2Proof.Machine
end

section
/-! CERTIFICATE. The statements of the family 41_hmac_sha1: the parts of SHA-1, the keyed hash, and the operation HMAC. -/

namespace Sys2Proof.Proofs

open Sys2Proof Sys2Proof.Machine

/-- Settles O31: the model's number of zeros makes the length a multiple of 64 and is below 64, so no smaller one does. -/
theorem sha1PadShape : Obligations.Sha1PadShape :=
  fun m => ⟨(55 + 64 - m.length % 64) % 64, rfl, by rw [length_sha1Pad]; omega, by omega, by omega, fun z' _ => by omega⟩

/-- Settles O32: the schedule keeps the block's words at its beginning, and each word added follows the recurrence. -/
theorem sha1Schedule : Obligations.Sha1Schedule := by
  refine fun blk => ⟨length_schedule blk, fun t ht => ?_, fun t h16 h80 => ?_⟩
  · rw [schedule_getD_of_lt blk ht, be32_drop]
  · rw [schedule_getD_of_ge blk h16 h80, rotl32_eq_rotateLeft _ (by omega)]

/-- Settles O33: the working variables after `t` rounds are those after the rounds over the first `t` words. -/
theorem sha1Compression : Obligations.Sha1Compression := by
  refine fun h blk => ⟨fun t => sha1Rounds 0 ((schedule blk).take t) h, rfl, fun t ht => ?_, sha1Compress_eq h blk⟩
  dsimp only
  rw [sha1Rounds_take_succ (by simpa using ht), sha1Round_eq_rotateLeft]

/-- Settles O34: the chaining values after `i` blocks are those of the model's loop run for `i` blocks. -/
theorem sha1Blocks : Obligations.Sha1Blocks := fun m =>
  ⟨fun i => Machine.sha1Blocks i (sha1Pad m) sha1Init, rfl, fun i _ => sha1Blocks_succ_last i _ _, rfl⟩

/-- Settles O36: the key block is the witness. -/
theorem hmacStructure : Obligations.HmacStructure := fun key msg =>
  ⟨hmacKeyBlock key, rfl, length_hmacKeyBlock key, fun _ => length_sha1 key, hmacSha1_eq key msg, length_hmacSha1 key msg⟩

/-- Settles O37: a long key and its hash have one key block; a key of 64 bytes is its own. -/
theorem longKeys : Obligations.LongKeys := by
  refine ⟨fun key msg h => ⟨length_sha1 key, ?_⟩, fun key msg h => ?_⟩
  · rw [hmacSha1_eq, hmacKeyBlock_of_long h, ← hmacSha1_eq]
  · rw [hmacSha1_eq, hmacKeyBlock_of_length_eq h]

/-- Settles O10: every operation completes with its response; HMAC's is BadLength above the capacity, InvalidSecret for the
empty key, else the keyed hash of the counter block. -/
theorem hmacResult : Obligations.HmacResult := by
  intro n d c s
  have hdone := completesWith_responseTo (.hmac n d c) s
  split_ifs with h h0
  · rwa [responseTo_hmac_above c h] at hdone
  · subst h0
    rwa [responseTo_hmac_empty] at hdone
  · rw [responseTo_hmac_ok c (Nat.le_of_not_lt h) h0] at hdone
    rwa [dataResponse, length_hmacSha1] at hdone

/-- Settles O35: the digest is five words of four bytes; the check values are evaluated. -/
theorem sha1DigestBytes : Obligations.Sha1DigestBytes := by
  refine ⟨fun h => ⟨by simp [sha1Digest], fun i hi => ?_⟩, by decide +kernel, by decide +kernel⟩
  have hshift : 24 - 8 * i = 8 * (4 - 1 - i) := by omega
  have h8 : 8 + i = 4 + (4 + i) := by omega
  have h12 : 12 + i = 4 + (4 + (4 + i)) := by omega
  have h16 : 16 + i = 4 + (4 + (4 + (4 + i))) := by omega
  simp only [sha1Digest, List.append_assoc, hshift, h8, h12, h16, bytesBE_append_getD_right,
    bytesBE_append_getD_left _ _ hi, bytesBE_getD _ hi, and_self]

end Sys2Proof.Proofs
end

section
/-! SUPPORT. Dynamic truncation (spec/42_hotp_truncator.md R131, R132): the offset and the truncated value as remainders, and four
bytes joined by shifts and ors as one sum. -/

namespace Sys2Proof.Machine

theorem truncOffset_eq_mod (d : List Byte) : truncOffset d = (d.getD 19 0).toNat % 16 :=
  Nat.and_two_pow_sub_one_eq_mod _ 4

/-- R132: the mask clears bit 31 of the four bytes. -/
theorem truncValue_eq_mod (d : List Byte) : truncValue d = be32 (d.drop (truncOffset d)) % 2 ^ 31 :=
  Nat.and_two_pow_sub_one_eq_mod _ 31

theorem truncValue_lt (d : List Byte) : truncValue d < 2 ^ 31 := by
  rw [truncValue_eq_mod]
  exact Nat.mod_lt _ (by decide)

/-- Four bytes that do not overlap: or is addition. -/
theorem or_shiftLeft_bytes (a : Nat) {b c e : Nat} (hb : b < 256) (hc : c < 256) (he : e < 256) :
    (a <<< 24) ||| (b <<< 16) ||| (c <<< 8) ||| e = a * 2 ^ 24 + b * 2 ^ 16 + c * 2 ^ 8 + e := by
  have hce : c <<< 8 + e < 2 ^ 16 := by rw [Nat.shiftLeft_eq]; omega
  have hbce : b <<< 16 + (c <<< 8 + e) < 2 ^ 24 := by rw [Nat.shiftLeft_eq]; omega
  rw [Nat.or_assoc, Nat.or_assoc, ← Nat.shiftLeft_add_eq_or_of_lt (i := 8) he, ← Nat.shiftLeft_add_eq_or_of_lt hce,
    ← Nat.shiftLeft_add_eq_or_of_lt hbce]
  simp only [Nat.shiftLeft_eq, Nat.add_assoc]

/-- R132: clearing bit 31 of the four bytes is clearing the top bit of the first. -/
theorem truncValue_eq_or (d : List Byte) : truncValue d =
    (((d.getD (truncOffset d) 0).toNat &&& 0x7F) <<< 24) ||| ((d.getD (truncOffset d + 1) 0).toNat <<< 16)
      ||| ((d.getD (truncOffset d + 2) 0).toNat <<< 8) ||| (d.getD (truncOffset d + 3) 0).toNat := by
  have hbyte (i : Nat) : (d.getD i 0).toNat < 256 := (d.getD i 0).isLt
  have h0 := hbyte (truncOffset d)
  have h1 := hbyte (truncOffset d + 1)
  have h2 := hbyte (truncOffset d + 2)
  have h3 := hbyte (truncOffset d + 3)
  rw [or_shiftLeft_bytes _ h1 h2 h3, truncValue_eq_mod, be32_drop, Nat.and_two_pow_sub_one_eq_mod _ 7]
  omega

end Sys2Proof.Machine
end

section
/-! SUPPORT. The decimal text (spec/42_hotp_truncator.md R133, R134): its characters, and the number they write. -/

namespace Sys2Proof.Machine

/-- R134: the character of a decimal digit is `0x30` above it; it fits in a byte. -/
theorem toNat_decChar (v : Nat) : (BitVec.ofNat 8 (0x30 + v % 10)).toNat = 0x30 + v % 10 := by
  rw [BitVec.toNat_ofNat]
  omega

theorem toNat_getElem_decText (v n i : Nat) (hi : i < (decText v n).length) :
    ((decText v n)[i]).toNat = 0x30 + v / 10 ^ (n - 1 - i) % 10 := by
  rw [← toNat_decChar]
  simp [decText]

theorem toNat_getElem_otpText (p n i : Nat) (hi : i < (otpText p n).length) :
    ((otpText p n)[i]).toNat = 0x30 + p % 10 ^ n / 10 ^ (n - 1 - i) % 10 := toNat_getElem_decText _ n i hi

/-- R134: the last character is that of the last decimal digit, the text before it that of the number without this digit. -/
theorem decText_succ (v n : Nat) : decText v (n + 1) = decText (v / 10) n ++ [BitVec.ofNat 8 (0x30 + v % 10)] := by
  rw [decText, List.range_succ, List.map_append, List.map_singleton, Nat.add_sub_cancel, Nat.sub_self, Nat.pow_zero,
    Nat.div_one]
  refine congrArg (· ++ _) (List.map_congr_left fun i hi => ?_)
  have hexp : n - i = n - 1 - i + 1 := by have := List.mem_range.mp hi; omega
  rw [hexp, Nat.pow_succ', Nat.div_div_eq_div_mul]

/-- R134: `n` characters write the low `n` decimal digits. -/
theorem valueOf_decText (v n : Nat) : valueOf 10 ((decText v n).map fun c => c.toNat - 0x30) = v % 10 ^ n := by
  induction n generalizing v with
  | zero => rw [Nat.pow_zero, Nat.mod_one]; rfl
  | succ n ih =>
    rw [decText_succ, List.map_append, List.map_singleton, valueOf_concat, ih, toNat_decChar, Nat.add_sub_cancel_left,
      Nat.pow_succ', Nat.mod_mul]
    omega

theorem valueOf_otpText (p n : Nat) : valueOf 10 ((otpText p n).map fun c => c.toNat - 0x30) = p % 10 ^ n := by
  rw [otpText, valueOf_decText, Nat.mod_mod]

end Sys2Proof.Machine
end

section
/-! SUPPORT. The responses of TRUNC and HOTP by the outcome of their checks, in order (spec/42_hotp_truncator.md R136, R138). -/

namespace Sys2Proof.Machine

/-- R138: the response of a success with an OTP text, whose length is the digit count. -/
theorem Response.ofText_otpText (p n : Nat) :
    Response.ofText (otpText p n) = { textResponse (otpText p n) with rtextLen := some n } := by
  rw [Response.ofText, length_otpText]
  rfl

/-- R136: the response of a success of TRUNC, which has `P` besides. -/
theorem Response.ofTrunc_otpText (p n : Nat) : Response.ofTrunc p (otpText p n) =
    { textResponse (otpText p n) with rval := some (BitVec.ofNat 31 p), rtextLen := some n } := by
  rw [Response.ofTrunc, Response.ofText_otpText]

section
variable {K n : Nat} {d : Buffer} {c : BitVec Config.CTR_W} {g : BitVec Config.DIGITS_W}

theorem responseTo_trunc_not_digest (h : n ≠ 20) : responseTo K (.trunc n d g) = errorResponse 7 := by
  rw [responseTo, opResult, opTrunc_eq, digestOperand_eq_badLength_iff.mpr h]
  rfl

/-- R136: with a digest TRUNC answers with what Truncate gives. -/
theorem responseTo_trunc_digest : responseTo K (.trunc 20 d g) =
    respond ((truncate (memRead d 0 20) g.toNat).map fun ps => .ofTrunc ps.1 ps.2) := by
  rw [responseTo, opResult, opTrunc_eq]
  rfl

theorem responseTo_trunc : responseTo K (.trunc n d g) =
    if n ≠ 20 then errorResponse 7
    else if g.toNat < 1 ∨ 9 < g.toNat then errorResponse 3
    else .ofTrunc (truncValue (memRead d 0 20)) (otpText (truncValue (memRead d 0 20)) g.toNat) := by
  by_cases hn : n = 20
  · rw [if_neg (not_not.mpr hn), hn, responseTo_trunc_digest, truncate]
    rcases checkDigits_cases g.toNat with ⟨hg, e⟩ | ⟨hg, e⟩
    · rw [if_pos hg, e]
      rfl
    · rw [if_neg (by omega), e]
      rfl
  · rw [if_pos hn, responseTo_trunc_not_digest hn]

theorem responseTo_hotp_above (h : Config.KEY_MAX K < n) : responseTo K (.hotp n d c g) = errorResponse 7 := by
  rw [responseTo, opResult, opHotp_eq, dataOperand_above d h]
  rfl

/-- R138: within the capacity HOTP answers with what the shared computation gives for the `n` bytes. -/
theorem responseTo_hotp_of_le (h : n ≤ Config.KEY_MAX K) : responseTo K (.hotp n d c g) =
    respond ((hotpCompute (memRead d 0 n) c.toNat g.toNat).map .ofText) := by
  rw [responseTo, opResult, opHotp_eq, dataOperand, if_neg h.not_gt]
  rfl

theorem responseTo_hotp : responseTo K (.hotp n d c g) =
    if Config.KEY_MAX K < n then errorResponse 7
    else if n = 0 then errorResponse 2
    else if g.toNat < 1 ∨ 9 < g.toNat then errorResponse 3
    else .ofText (otpText (truncValue (hmacSha1 (memRead d 0 n) (counterBlock c.toNat))) g.toNat) := by
  rcases Nat.lt_or_ge (Config.KEY_MAX K) n with h | h
  · rw [if_pos h, responseTo_hotp_above h]
  · rw [if_neg h.not_gt, responseTo_hotp_of_le h]
    rcases hotpCompute_cases (memRead d 0 n) c.toNat g.toNat with ⟨h0, e⟩ | ⟨h0, hg, e⟩ | ⟨h0, hg, e⟩ <;>
      rw [length_memRead] at h0
    · rw [if_pos h0, e]
      rfl
    · rw [if_neg h0.ne', if_pos hg, e]
      rfl
    · rw [if_neg h0.ne', if_neg (by omega), e]
      rfl

end

end Sys2Proof.Machine
end

section
/-! CERTIFICATE. The statements of the family 42_hotp_truncator: the truncated value, the OTP text, and the operations TRUNC and
HOTP. -/

namespace Sys2Proof.Proofs

open Sys2Proof Sys2Proof.Machine

/-- Settles O39: the offset is the last byte's low four bits, and the mask clears the top bit of the first of the four bytes. -/
theorem truncatedValue : Obligations.TruncatedValue := by
  refine fun d _ => ⟨truncOffset d, truncOffset_eq_mod d, ?_, truncValue_eq_or d, rfl, Nat.le_of_lt_succ (truncValue_lt d)⟩
  rw [truncOffset_eq_mod]
  omega

/-- Settles O40: each character is `0x30` above a decimal digit; the number is read by induction on the text. -/
theorem otpTextDigits : Obligations.OtpTextDigits := by
  refine ⟨fun p n => ⟨length_otpText p n, fun i hi => ?_, valueOf_otpText p n⟩, by decide⟩
  have hchar := toNat_getElem_otpText p n i hi
  omega

/-- Settles O11: every operation completes with its response; TRUNC's success writes `P` and the OTP text of `P`. -/
theorem truncResult : Obligations.TruncResult := by
  intro n d g s
  have hdone := completesWith_responseTo (.trunc n d g) s
  rwa [responseTo_trunc, Response.ofTrunc_otpText] at hdone

/-- Settles O13: every operation completes with its response; HOTP's success writes the OTP text of the keyed hash alone. -/
theorem hotpResult : Obligations.HotpResult := by
  intro n d c g s
  have hdone := completesWith_responseTo (.hotp n d c g) s
  rwa [responseTo_hotp, Response.ofText_otpText] at hdone

end Sys2Proof.Proofs
end

section
/-! SUPPORT. The responses of TSTEP and TOTP by the outcome of their checks, in order (spec/43_totp.md R151, R153). -/

namespace Sys2Proof.Machine

/-! ### TSTEP -/

section
variable {K : Nat} {w : BitVec Config.NOW_W} {p : BitVec Config.PERIOD_W}

/-- R150, R152: the counter function at a period field. -/
theorem tStep_toNat (now : Nat) (p : BitVec Config.PERIOD_W) :
    tStep now p.toNat = if p = 0 then .error .invalidPeriod else .ok (now / p.toNat) := by
  rcases checkPeriod_cases p.toNat with ⟨hp, e⟩ | ⟨hp, e⟩
  · rw [tStep, e, if_pos (BitVec.eq_of_toNat_eq hp)]
  · rw [tStep, e, if_neg (ne_of_apply_ne BitVec.toNat hp.ne')]

theorem responseTo_tstep : responseTo K (.tstep w p) =
    if p = 0 then errorResponse 5 else .ofCounter (w.toNat / p.toNat) := by
  rw [responseTo, opResult, opTstep_eq, tStep_toNat]
  split <;> rfl

/-- R150: the count of whole periods is at most `now`, so the 64-bit counter holds it. -/
theorem toNat_periodCount : (BitVec.ofNat Config.CTR_W (w.toNat / p.toNat)).toNat = w.toNat / p.toNat := by
  rw [BitVec.toNat_ofNat, Nat.mod_eq_of_lt ((Nat.div_le_self _ _).trans_lt w.isLt)]

end

/-! ### TOTP -/

/-- R154: a text that does not decode is reported as InvalidSecret. -/
theorem secretOf_of_undecodable {t : List Byte} (h : b32Decode t = .error .invalidEncoding) :
    secretOf t = .error .invalidSecret := by
  rw [secretOf, h]

theorem secretOf_of_decoded {t key : List Byte} (h : b32Decode t = .ok key) : secretOf t = .ok key := by
  rw [secretOf, h]

/-- R138, R153: the response HOTP and TOTP end with, by the outcome of the checks of their shared part. -/
theorem respond_hotpCompute (b : List Byte) (c n : Nat) : respond ((hotpCompute b c n).map .ofText) =
    if b.length = 0 then errorResponse 2
    else if n < 1 ∨ 9 < n then errorResponse 3
    else .ofText (otpText (truncValue (hmacSha1 b (counterBlock c))) n) := by
  rcases hotpCompute_cases b c n with ⟨h0, e⟩ | ⟨h0, hn, e⟩ | ⟨h0, hn, e⟩
  · rw [if_pos h0, e]
    rfl
  · rw [if_neg h0.ne', if_pos hn, e]
    rfl
  · rw [if_neg h0.ne', if_neg (by omega), e]
    rfl

section
variable {K n : Nat} {t : Buffer} {key : List Byte} {w : BitVec Config.NOW_W} {p : BitVec Config.PERIOD_W}
  {g : BitVec Config.DIGITS_W}

theorem responseTo_totp_above (h : Config.TXT_MAX K < n) : responseTo K (.totp n t w p g) = errorResponse 7 := by
  rw [responseTo, opResult, opTotp_eq, textOperand_above t h]
  rfl

/-- R153: within the capacity TOTP answers with what its chain of checks gives for the text. -/
theorem responseTo_totp_of_le (h : n ≤ Config.TXT_MAX K) : responseTo K (.totp n t w p g) =
    respond (((secretOf (memRead t 0 n)).bind fun key => (tStep w.toNat p.toNat).bind fun c =>
      hotpCompute key c g.toNat).map .ofText) := by
  rw [responseTo, opResult, opTotp_eq, textOperand, if_neg h.not_gt]
  rfl

theorem responseTo_totp_undecodable (h : n ≤ Config.TXT_MAX K)
    (hd : b32Decode (memRead t 0 n) = .error .invalidEncoding) : responseTo K (.totp n t w p g) = errorResponse 2 := by
  rw [responseTo_totp_of_le h, secretOf_of_undecodable hd]
  rfl

theorem responseTo_totp_decoded (h : n ≤ Config.TXT_MAX K) (hd : b32Decode (memRead t 0 n) = .ok key) :
    responseTo K (.totp n t w p g) =
      if p = 0 then errorResponse 5
      else if key.length = 0 then errorResponse 2
      else if g.toNat < 1 ∨ 9 < g.toNat then errorResponse 3
      else .ofText (otpText (truncValue (hmacSha1 key (counterBlock (w.toNat / p.toNat)))) g.toNat) := by
  rw [responseTo_totp_of_le h, secretOf_of_decoded hd, tStep_toNat, ← respond_hotpCompute]
  split_ifs <;> rfl

end

/-! ### A zero field -/

section
variable {K n : Nat} {b : Buffer}

theorem responseTo_tstep_zero_period (w : BitVec Config.NOW_W) : responseTo K (.tstep w 0) = errorResponse 5 := by
  rw [responseTo_tstep, if_pos rfl]

theorem responseTo_trunc_zero_digits : responseTo K (.trunc 20 b 0) = errorResponse 3 := by
  rw [responseTo_trunc, if_neg (not_not.mpr rfl), if_pos (.inl Nat.zero_lt_one)]

/-- R130, R157: HOTP answers a digit count of 0 with an error. -/
theorem responseTo_hotp_zero_digits_err (c : BitVec Config.CTR_W) : (responseTo K (.hotp n b c 0)).err ≠ 0 := by
  rw [responseTo_hotp]
  split_ifs with h h0 hg
  · decide
  · decide
  · decide
  · exact absurd (.inl Nat.zero_lt_one) hg

/-- R152, R157: TOTP answers a period of 0 or a digit count of 0 with an error. -/
theorem responseTo_totp_zero_err {w : BitVec Config.NOW_W} {p : BitVec Config.PERIOD_W} {g : BitVec Config.DIGITS_W}
    (h : p = 0 ∨ g = 0) : (responseTo K (.totp n b w p g)).err ≠ 0 := by
  rcases Nat.lt_or_ge (Config.TXT_MAX K) n with hn | hn
  · rw [responseTo_totp_above hn]
    decide
  · rcases b32Decode_cases (memRead b 0 n) with ⟨hd, -⟩ | ⟨key, hd, -⟩
    · rw [responseTo_totp_undecodable hn hd]
      decide
    · rw [responseTo_totp_decoded hn hd]
      split_ifs with hp hkey hg
      · decide
      · decide
      · decide
      · exact absurd (.inl (h.resolve_left hp ▸ Nat.zero_lt_one)) hg

end

end Sys2Proof.Machine
end

section
/-! CERTIFICATE. The statements of the family 43_totp: the time counter, the operations TSTEP and TOTP, and the host's
defaults. -/

namespace Sys2Proof.Proofs

open Sys2Proof Sys2Proof.Machine

/-- Settles O45: the counter is the quotient, which fits; the bounds are those of division with remainder. -/
theorem timeCounter : Obligations.TimeCounter := by
  intro w p s hp
  have hdone := completesWith_responseTo (.tstep w p) s
  rw [responseTo_tstep, if_neg (ne_of_apply_ne BitVec.toNat (Nat.one_le_iff_ne_zero.mp hp))] at hdone
  refine ⟨BitVec.ofNat _ (w.toNat / p.toNat), hdone, ?_⟩
  rw [toNat_periodCount, Nat.add_mul, Nat.one_mul]
  exact ⟨Nat.div_mul_le_self _ _, Nat.lt_div_mul_add hp, Nat.div_le_self _ _⟩

/-- Settles O12: every operation completes with its response; TSTEP's is InvalidPeriod for a period of 0, else the quotient. -/
theorem tstepResult : Obligations.TstepResult := by
  intro w p s
  have hdone := completesWith_responseTo (.tstep w p) s
  rwa [responseTo_tstep] at hdone

/-- Settles O14: every operation completes with its response; TOTP's is BadLength above the capacity, InvalidSecret for a text
that does not decode, else what the checks after decoding give. -/
theorem totpResult : Obligations.TotpResult := by
  intro n d w p g s
  have hdone := completesWith_responseTo (.totp n d w p g) s
  rcases Nat.lt_or_ge (Config.TXT_MAX Config.K) n with h | h
  · rwa [if_pos h, ← responseTo_totp_above h]
  · rw [if_neg h.not_gt]
    rcases b32Decode_cases (memRead d 0 n) with ⟨hd, -⟩ | ⟨key, hd, -⟩
    · simpa only [hd, responseTo_totp_undecodable h hd] using hdone
    · rw [responseTo_totp_decoded h hd, Response.ofText_otpText] at hdone
      rwa [hd]

/-- Settles O60: the host's requests and procedures with defaults are those with the values filled in; in CORE the check of each
operation that reads the field refuses a 0. -/
theorem hostDefaults : Obligations.HostDefaults :=
  fun _ _ => ⟨fun _ _ _ _ => ⟨rfl, rfl, rfl, rfl⟩, fun _ _ => ⟨rfl, rfl⟩, responseTo_tstep_zero_period,
    fun _ => responseTo_trunc_zero_digits, fun _ _ => responseTo_hotp_zero_digits_err,
    fun _ _ _ _ _ => responseTo_totp_zero_err⟩

end Sys2Proof.Proofs
end

section
/-! SUPPORT. The first cause of a request (spec/60_exceptions.md R170, R174): a list of causes read as a chain of conditions,
which is the chain of the operation's checks. -/

namespace Sys2Proof.Machine

/-! ### The first cause of a list -/

section
variable {p : Prop} [Decidable p] (e : Err) (l : List (Bool × Err))

theorem firstCause_cons (b : Bool) : firstCause ((b, e) :: l) = if b then e.code else firstCause l := by
  cases b <;> rfl

theorem firstCause_cons_of (h : p) : firstCause ((decide p, e) :: l) = e.code := by
  rw [firstCause_cons, if_pos (decide_eq_true h)]

theorem firstCause_cons_of_not (h : ¬p) : firstCause ((decide p, e) :: l) = firstCause l := by
  rw [firstCause_cons, if_neg (mt of_decide_eq_true h)]

end

/-! ### The causes as the units check them -/

/-- R68, R92: the characters with an index are those of the alphabet. -/
theorem contains_b32Alphabet (c : Byte) : b32Alphabet.contains c = (b32Index c).isSome := by
  rw [Bool.eq_iff_iff, List.contains_iff_mem, List.mem_iff_getElem?, Option.isSome_iff_exists]
  exact exists_congr fun i => b32Alphabet_getElem?_eq_some_iff.trans b32Index_eq_some_iff.symm

theorem undecodable_eq_any (t : List Byte) : undecodable t = (foldStrip t).any fun c => (b32Index c).isNone := by
  simp only [undecodable, contains_b32Alphabet, Option.not_isSome]

/-- R93, R95: B32Decode refuses an undecodable text; any other gives no byte exactly when fewer than 2 characters are left. -/
theorem b32Decode_cases_undecodable (t : List Byte) :
    (undecodable t = true ∧ b32Decode t = .error .invalidEncoding) ∨
    (undecodable t = false ∧ ∃ key, b32Decode t = .ok key ∧ (key.length = 0 ↔ (foldStrip t).length < 2)) := by
  rw [undecodable_eq_any]
  rcases b32Decode_cases t with ⟨hd, hbad⟩ | ⟨key, hd, hgood, hlen⟩
  · exact .inl ⟨hbad, hd⟩
  · exact .inr ⟨hgood, key, hd, by omega⟩

/-- R70: the digit counts that are not legal are those the digit check refuses. -/
theorem digitsIllegal_iff (g : BitVec Config.DIGITS_W) : digitsIllegal g = true ↔ g.toNat < 1 ∨ 9 < g.toNat := by
  rw [digitsIllegal, Bool.or_eq_true, decide_eq_true_iff, decide_eq_true_iff]
  omega

theorem period_eq_zero_iff (p : BitVec Config.PERIOD_W) : p = 0 ↔ p.toNat = 0 := BitVec.toNat_inj.symm

/-! ### The responses of B32ENC and HMAC -/

variable {K : Nat} {i : Instr} {e : Err} {r : Response}

/-- R102: the response of B32ENC by the outcome of its one check. -/
theorem responseTo_b32enc (n : Nat) (d : Buffer) : responseTo K (.b32enc n d) =
    if Config.KEY_MAX K < n then errorResponse 7 else textResponse (b32Encode (memRead d 0 n)) := by
  split_ifs with h
  · exact responseTo_b32enc_above h
  · exact responseTo_b32enc_of_le (Nat.le_of_not_lt h)

/-- R118: the response of HMAC by the outcome of its checks, in order. -/
theorem responseTo_hmac (n : Nat) (d : Buffer) (c : BitVec Config.CTR_W) : responseTo K (.hmac n d c) =
    if Config.KEY_MAX K < n then errorResponse 7
    else if n = 0 then errorResponse 2
    else dataResponse (hmacSha1 (memRead d 0 n) (counterBlock c.toNat)) := by
  split_ifs with h h0
  · exact responseTo_hmac_above c h
  · exact h0 ▸ responseTo_hmac_empty c
  · exact responseTo_hmac_ok c (Nat.le_of_not_lt h) h0

/-! ### The error of a response -/

theorem responseTo_of_error (h : opResult K i = .error e) : responseTo K i = errorResponse e.code := by
  rw [responseTo, h]
  rfl

theorem responseTo_of_ok (h : opResult K i = .ok r) : responseTo K i = r := by
  rw [responseTo, h]
  rfl

/-- R174: the error of every response is the first of its operation's causes, 0 when there is none. A response given as a chain of
conditions is that of the causes; B32DEC and TOTP decode their text between two checks. -/
theorem responseTo_err_eq_firstCause (K : Nat) (i : Instr) : (responseTo K i).err = firstCause (causes K i) := by
  cases i with
  | b32enc | hmac | trunc | tstep | hotp =>
    simp only [responseTo_b32enc, responseTo_hmac, responseTo_trunc, responseTo_tstep, responseTo_hotp,
      apply_ite Response.err, causes, firstCause_cons, decide_eq_true_iff, digitsIllegal_iff, period_eq_zero_iff]
    rfl
  | b32dec n t =>
    rcases Nat.lt_or_ge (Config.TXT_MAX K) n with h | h
    · rw [responseTo_b32dec_above h, causes, firstCause_cons_of _ _ h]
      rfl
    · rw [causes, firstCause_cons_of_not _ _ h.not_gt, firstCause_cons]
      rcases b32Decode_cases_undecodable (memRead t 0 n) with ⟨hbad, hd⟩ | ⟨hgood, key, hd, -⟩
      · rw [responseTo_b32dec_undecodable h hd, hbad]
        rfl
      · rw [responseTo_b32dec_ok h hd, hgood]
        rfl
  | totp n t w p g =>
    rcases Nat.lt_or_ge (Config.TXT_MAX K) n with h | h
    · rw [responseTo_totp_above h, causes, firstCause_cons_of _ _ h]
      rfl
    · rw [causes, firstCause_cons_of_not _ _ h.not_gt, firstCause_cons]
      rcases b32Decode_cases_undecodable (memRead t 0 n) with ⟨hbad, hd⟩ | ⟨hgood, key, hd, hempty⟩
      · rw [responseTo_totp_undecodable h hd, hbad]
        rfl
      · simp only [responseTo_totp_decoded h hd, hgood, hempty, apply_ite Response.err, firstCause_cons, decide_eq_true_iff,
          digitsIllegal_iff, period_eq_zero_iff]
        rfl
  | reserved7 => rfl

/-- R174, R173: an operation whose first cause is `e` answers with the code of `e` and nothing else. -/
theorem responseTo_of_firstCause (h : firstCause (causes K i) = e.code) : responseTo K i = errorResponse e.code :=
  responseTo_of_error ((responseTo_err_eq_code_iff e).mp ((responseTo_err_eq_firstCause K i).trans h))

end Sys2Proof.Machine
end

section
/-! CERTIFICATE. The statements of the family 60_exceptions: how an error is reported and retired, and the order of the causes. -/

namespace Sys2Proof.Proofs

open Sys2Proof Sys2Proof.Machine

/-- Settles O17: every operation completes with its response; from DONE the step is RETIRE or holding, whatever the response. -/
theorem errorReported : Obligations.ErrorReported := by
  intro i s
  refine ⟨_, responseTo Config.K i, exec_eq i s, rfl, rfl, rfl, fun e h => ?_, fun r h => ?_,
    fun hrst hready => ⟨_, step_retire rfl hready hrst, rfl, rfl, rfl⟩,
    fun hrst hready => ⟨_, step_hold_done rfl hready hrst, rfl, rfl, rfl⟩⟩
  · rw [responseTo_of_error h]
    exact ⟨rfl, e.code_ne_zero⟩
  · rw [responseTo_of_ok h]
    obtain ⟨herr, -⟩ := succeedsFor_of_opResult_ok h
    exact ⟨rfl, herr⟩

/-- Settles O23: each operation makes its checks in the order of its causes; the named consequences are instances. -/
theorem errorPriority : Obligations.ErrorPriority := by
  intro K hK
  have hfits : ¬Config.TXT_MAX K < 1 := by rw [Config.TXT_MAX]; omega
  exact ⟨responseTo_err_eq_firstCause K,
    responseTo_of_firstCause (e := .invalidSecret) ((firstCause_cons_of_not _ _ hfits).trans rfl),
    responseTo_of_firstCause (e := .invalidPeriod) ((firstCause_cons_of_not _ _ (Nat.not_lt_zero _)).trans rfl),
    responseTo_of_firstCause (e := .invalidSecret) ((firstCause_cons_of_not _ _ (Nat.not_lt_zero _)).trans rfl),
    responseTo_of_firstCause (e := .invalidSecret) ((firstCause_cons_of_not _ _ (Nat.not_lt_zero _)).trans rfl),
    fun _ => responseTo_of_firstCause (e := .badLength) rfl⟩

end Sys2Proof.Proofs
end

section
/-! SUPPORT. A number's digits in a base, most significant first (spec/20_memory.md R43): the bytes of a big-endian number, its
decimal characters and the 5-bit groups of Base32 are all such digits. -/

namespace Sys2Proof.Machine

/-- The low `n` digits of `x` in base `base`, most significant first. -/
def digitsBE (base n x : Nat) : List Nat := (List.range n).map fun i => x / base ^ (n - 1 - i) % base

variable {base : Nat}

@[simp] theorem length_digitsBE (base n x : Nat) : (digitsBE base n x).length = n := by simp [digitsBE]

theorem digitsBE_succ (base n x : Nat) : digitsBE base (n + 1) x = x / base ^ n % base :: digitsBE base n x := by
  simp [digitsBE, List.range_succ_eq_map, Function.comp_def, Nat.sub_sub, Nat.add_comm]

/-- The first of `m + n` digits are those of the number without its last `n` digits. -/
theorem digitsBE_add (base m n x : Nat) :
    digitsBE base (m + n) x = digitsBE base m (x / base ^ n) ++ digitsBE base n x := by
  induction m with
  | zero => simp [digitsBE]
  | succ m ih =>
    rw [Nat.add_right_comm, digitsBE_succ, ih, digitsBE_succ, Nat.div_div_eq_div_mul, ← Nat.pow_add, Nat.add_comm n,
      List.cons_append]

theorem digitsBE_succ_last (base n x : Nat) : digitsBE base (n + 1) x = digitsBE base n (x / base) ++ [x % base] := by
  rw [digitsBE_add, Nat.pow_one, digitsBE_succ, Nat.pow_zero, Nat.div_one]
  rfl

/-- The low `n` digits see the number modulo `base ^ n`. -/
theorem digitsBE_mod_pow (base n x : Nat) : digitsBE base n (x % base ^ n) = digitsBE base n x := by
  induction n generalizing x with
  | zero => rfl
  | succ n ih =>
    rw [digitsBE_succ_last, digitsBE_succ_last, Nat.pow_succ', Nat.mod_mul_right_div_self, ih, Nat.mod_mul_right_mod]

theorem lt_of_mem_digitsBE {n x d : Nat} (hb : 0 < base) (h : d ∈ digitsBE base n x) : d < base := by
  obtain ⟨i, -, rfl⟩ := List.mem_map.mp h
  exact Nat.mod_lt _ hb

theorem valueOf_digitsBE (base n x : Nat) : valueOf base (digitsBE base n x) = x % base ^ n := by
  induction n generalizing x with
  | zero => rw [Nat.pow_zero, Nat.mod_one]; rfl
  | succ n ih => rw [digitsBE_succ_last, valueOf_concat, ih, Nat.pow_succ', Nat.mod_mul, Nat.add_comm, Nat.mul_comm]

theorem digitsBE_valueOf {ds : List Nat} (h : ∀ d ∈ ds, d < base) : digitsBE base ds.length (valueOf base ds) = ds := by
  induction ds using List.reverseRecOn with
  | nil => rfl
  | append_singleton ds d ih =>
    obtain ⟨hds, hd⟩ := List.forall_mem_append.mp h
    have hd : d < base := hd d (List.mem_singleton_self d)
    rw [List.length_append, List.length_singleton, digitsBE_succ_last, valueOf_concat, Nat.mul_comm,
      Nat.mul_add_div (by omega), Nat.div_eq_of_lt hd, Nat.add_zero, ih hds, Nat.mul_add_mod, Nat.mod_eq_of_lt hd]

/-- Dividing by the power of the last digits leaves the number of the digits before them. -/
theorem valueOf_append_div_pow {us vs : List Nat} (h : ∀ v ∈ vs, v < base) :
    valueOf base (us ++ vs) / base ^ vs.length = valueOf base us := by
  induction vs generalizing us with
  | nil => simp
  | cons v vs ih =>
    obtain ⟨hv, hvs⟩ := List.forall_mem_cons.mp h
    rw [List.append_cons, List.length_cons, Nat.pow_succ, ← Nat.div_div_eq_div_mul, ih hvs, valueOf_concat, Nat.mul_comm,
      Nat.mul_add_div (by omega), Nat.div_eq_of_lt hv, Nat.add_zero]

/-! ### Bytes -/

/-- R9: big-endian bytes are the digits in base 256. -/
theorem bytesBE_eq_digitsBE (v n : Nat) : bytesBE v n = (digitsBE 256 n v).map (BitVec.ofNat 8) := by
  rw [bytesBE, digitsBE, List.map_map]
  refine List.map_congr_left fun i _ => BitVec.eq_of_toNat_eq ?_
  simp [Nat.shiftRight_eq_div_pow, Nat.pow_mul]

theorem bytesBE_mod_pow (v n : Nat) : bytesBE (v % (2 ^ 8) ^ n) n = bytesBE v n := by
  rw [bytesBE_eq_digitsBE, bytesBE_eq_digitsBE, show 2 ^ 8 = 256 from rfl, digitsBE_mod_pow]

theorem lt_of_mem_map_toNat {b : List Byte} {v : Nat} (h : v ∈ b.map (·.toNat)) : v < 256 := by
  obtain ⟨x, -, rfl⟩ := List.mem_map.mp h
  exact x.isLt

/-- R43: a byte sequence is the big-endian form of the number it writes. -/
theorem bytesBE_valueOf (b : List Byte) : bytesBE (valueOf 256 (b.map (·.toNat))) b.length = b := by
  have hdigits := digitsBE_valueOf (base := 256) fun v (hv : v ∈ b.map (·.toNat)) => lt_of_mem_map_toNat hv
  rw [List.length_map] at hdigits
  rw [bytesBE_eq_digitsBE, hdigits, List.map_map]
  exact List.map_id'' (fun x => by simp) b

end Sys2Proof.Machine
end

section
/-! SUPPORT. The loops of B32Encode in closed form (spec/40_base32.md R99): the bytes read so far are one number in base 256, and
the rolling buffer holds the bits of it that no character put out has taken. -/

namespace Sys2Proof.Machine

/-! ### The rolling buffer -/

/-- Shifting `k` new bits into a buffer of `n` bits. -/
theorem mod_shiftLeft_or {v k : Nat} (hv : v < 2 ^ k) (x n : Nat) :
    ((x % 2 ^ n) <<< k) ||| v = (x * 2 ^ k + v) % 2 ^ (n + k) := by
  have hdiv : (x * 2 ^ k + v) / 2 ^ k = x := by
    rw [Nat.mul_comm, Nat.mul_add_div (Nat.two_pow_pos k), Nat.div_eq_of_lt hv, Nat.add_zero]
  have hmod : (x * 2 ^ k + v) % 2 ^ k = v := by rw [Nat.mul_comm, Nat.mul_add_mod, Nat.mod_eq_of_lt hv]
  rw [← Nat.shiftLeft_add_eq_or_of_lt hv, Nat.shiftLeft_eq, Nat.add_comm n, Nat.pow_add, Nat.mod_mul, hdiv, hmod,
    Nat.add_comm, Nat.mul_comm]

/-- The top 5 of the `n + 5` bits in a buffer, as a value. -/
theorem mod_shiftRight_and_31 (x n : Nat) : ((x % 2 ^ (n + 5)) >>> n) &&& 0x1F = x / 2 ^ n % 32 := by
  rw [Nat.shiftRight_eq_div_pow, Nat.pow_add, Nat.mod_mul_right_div_self, Nat.and_two_pow_sub_one_eq_mod _ 5, Nat.mod_mod]

/-- The low `n` of the `n + k` bits in a buffer. -/
theorem mod_and_one_shiftLeft_sub_one (x n k : Nat) : (x % 2 ^ (n + k)) &&& (1 <<< n - 1) = x % 2 ^ n := by
  rw [Nat.one_shiftLeft, Nat.and_two_pow_sub_one_eq_mod, Nat.pow_add, Nat.mod_mul_right_mod]

/-! ### The loops -/

theorem encodeDrain_lt {fuel acc nbits : Nat} (h : nbits < 5) : encodeDrain fuel acc nbits = ([], acc, nbits) := by
  cases fuel with
  | zero => rfl
  | succ fuel => exact if_neg (by omega)

theorem encodeDrain_add_five (fuel x n : Nat) :
    encodeDrain (fuel + 1) (x % 2 ^ (n + 5)) (n + 5) =
      (b32Char (x / 2 ^ n % 32) :: (encodeDrain fuel (x % 2 ^ n) n).1, (encodeDrain fuel (x % 2 ^ n) n).2) := by
  rw [encodeDrain, if_pos (by omega)]
  simp only [Nat.add_sub_cancel, mod_shiftRight_and_31, mod_and_one_shiftLeft_sub_one]

/-- R99: the inner loop puts out the whole 5-bit groups of the buffer's `n` bits from the left, and keeps the rest. -/
theorem encodeDrain_eq {fuel n : Nat} (h : n ≤ fuel) (x : Nat) :
    encodeDrain fuel (x % 2 ^ n) n =
      ((digitsBE 32 (n / 5) (x / 2 ^ (n % 5))).map b32Char, x % 2 ^ (n % 5), n % 5) := by
  induction fuel generalizing n with
  | zero => rw [Nat.le_zero.mp h]; rfl
  | succ fuel ih =>
    rcases Nat.lt_or_ge n 5 with hn | hn
    · rw [encodeDrain_lt hn, Nat.div_eq_of_lt hn, Nat.mod_eq_of_lt hn]
      rfl
    · obtain ⟨m, rfl⟩ := Nat.exists_eq_add_of_le' hn
      have hpow : 2 ^ (m % 5) * 32 ^ (m / 5) = 2 ^ m := by
        rw [show 32 = 2 ^ 5 from rfl, ← Nat.pow_mul, ← Nat.pow_add, Nat.mod_add_div]
      rw [encodeDrain_add_five, ih (by omega), Nat.add_div_right _ (by omega), Nat.add_mod_right, digitsBE_succ,
        Nat.div_div_eq_div_mul, hpow, List.map_cons]

/-- R99: the number of characters that `n` bits take, and the number of zero bits that fill up the last. -/
def charCount (n : Nat) : Nat := (n + 4) / 5
def fillBits (n : Nat) : Nat := 5 * charCount n - n

theorem pow_charCount (n : Nat) : 32 ^ charCount n = 2 ^ fillBits n * 2 ^ n := by
  rw [show 32 = 2 ^ 5 from rfl, ← Nat.pow_mul, ← Nat.pow_add, fillBits, charCount]
  congr 1
  omega

/-- Taking the whole groups of the first `n` bits out leaves the fill as it is. -/
theorem charCount_add (n k : Nat) : charCount (n + k) = n / 5 + charCount (n % 5 + k) := by
  rw [charCount, charCount]
  omega

theorem fillBits_add (n k : Nat) : fillBits (n + k) = fillBits (n % 5 + k) := by
  rw [fillBits, charCount_add, fillBits]
  omega

/-- What is left in a buffer of fewer than 5 bits is filled up with zero bits to one group. -/
theorem encodeLoop_nil {n : Nat} (h : n < 5) (x : Nat) :
    encodeLoop [] (x % 2 ^ n) n = (digitsBE 32 (charCount n) (x * 2 ^ fillBits n)).map b32Char := by
  rcases Nat.eq_zero_or_pos n with rfl | hn
  · rfl
  · have hcount : charCount n = 1 := by rw [charCount]; omega
    have hpow : 2 ^ n * 2 ^ (5 - n) = 32 := by rw [← Nat.pow_add, Nat.add_sub_cancel' h.le]
    have hfill : ((x % 2 ^ n) <<< (5 - n)) &&& 0x1F = x * 2 ^ (5 - n) % 32 := by
      rw [Nat.shiftLeft_eq, Nat.and_two_pow_sub_one_eq_mod _ 5, ← Nat.mul_mod_mul_right, hpow, Nat.mod_mod]
    rw [encodeLoop, if_pos hn, hfill, fillBits, hcount, digitsBE_succ, Nat.pow_zero, Nat.div_one]
    rfl

/-- Without the groups of the last `r` bits before the bytes `xs` and of the bytes, what is left is the bits before all these. -/
theorem valueOf_div_pow_charCount (us : List Nat) (xs : List Byte) (r : Nat) :
    valueOf 256 (us ++ xs.map (·.toNat)) * 2 ^ fillBits (r + 8 * xs.length) / 32 ^ charCount (r + 8 * xs.length) =
      valueOf 256 us / 2 ^ r := by
  have hbytes : valueOf 256 (us ++ xs.map (·.toNat)) / 256 ^ xs.length = valueOf 256 us := by
    simpa using valueOf_append_div_pow (us := us) fun v (hv : v ∈ xs.map (·.toNat)) => lt_of_mem_map_toNat hv
  rw [pow_charCount, Nat.mul_comm (valueOf _ _), Nat.mul_div_mul_left _ _ (Nat.two_pow_pos _), Nat.add_comm, Nat.pow_add,
    Nat.pow_mul, ← Nat.div_div_eq_div_mul, hbytes]

/-- R99: the characters are the 5-bit groups, from the left, of the string of the `n` bits in the buffer and the bits of the
bytes to come, filled up with zero bits; the bits of `us` before it have left the buffer. -/
theorem encodeLoop_eq (b : List Byte) {us : List Nat} {n : Nat} (h : n < 5) :
    encodeLoop b (valueOf 256 us % 2 ^ n) n =
      (digitsBE 32 (charCount (n + 8 * b.length))
        (valueOf 256 (us ++ b.map (·.toNat)) * 2 ^ fillBits (n + 8 * b.length))).map b32Char := by
  induction b generalizing us n with
  | nil => simpa using encodeLoop_nil h (valueOf 256 us)
  | cons x xs ih =>
    have hbits : n + 8 * (x :: xs).length = n + 8 + 8 * xs.length := by rw [List.length_cons]; omega
    rw [encodeLoop, mod_shiftLeft_or (k := 8) x.isLt, show 2 ^ 8 = 256 from rfl, ← valueOf_concat,
      encodeDrain_eq (Nat.le_refl _)]
    dsimp only
    rw [ih (Nat.mod_lt _ (by decide)), List.map_cons, List.append_cons us x.toNat (xs.map _), hbits, charCount_add (n + 8),
      fillBits_add (n + 8), digitsBE_add, valueOf_div_pow_charCount, List.map_append]

/-! ### The encoding -/

/-- R99: the values of the characters of an encoding: the 5-bit groups of the bytes' bit string, filled up with zero bits. -/
def b32Values (b : List Byte) : List Nat :=
  digitsBE 32 (charCount (8 * b.length)) (valueOf 256 (b.map (·.toNat)) * 2 ^ fillBits (8 * b.length))

@[simp] theorem length_b32Values (b : List Byte) : (b32Values b).length = charCount (8 * b.length) := length_digitsBE _ _ _

theorem lt_of_mem_b32Values {b : List Byte} {v : Nat} (h : v ∈ b32Values b) : v < 32 := lt_of_mem_digitsBE (by decide) h

theorem b32Chars_eq (b : List Byte) : b32Chars b = (b32Values b).map b32Char := by
  have hloop := encodeLoop_eq b (us := []) (n := 0) (by decide)
  rwa [Nat.zero_add, List.nil_append] at hloop

/-- R99: the encoding is these characters and `=` up to 8 characters per 5 bytes begun. -/
theorem b32Encode_eq (b : List Byte) : b32Encode b = (b32Values b).map b32Char ++
    List.replicate (8 * ((b.length + 4) / 5) - charCount (8 * b.length)) padChar := by
  rw [b32Encode, padTo8, b32Chars_eq, List.length_map, length_b32Values, charCount]
  congr 2
  omega

end Sys2Proof.Machine
end

section
/-! SUPPORT. Decoding characters of the alphabet (spec/40_base32.md R94), and the round trip of section 3. -/

namespace Sys2Proof.Machine

theorem b32Char_ne_padChar : ∀ v < 32, b32Char v ≠ padChar := by decide

theorem upper_b32Char : ∀ v < 32, upper (b32Char v) = b32Char v := by decide

section
variable {vs : List Nat} (h : ∀ v ∈ vs, v < 32)
include h

theorem filterMap_b32Index_map_b32Char : (vs.map b32Char).filterMap b32Index = vs := by
  have hsome : ∀ v ∈ vs, (b32Index ∘ b32Char) v = some v := fun v hv => b32Index_b32Char v (h v hv)
  rw [List.filterMap_map, List.filterMap_congr hsome, List.filterMap_some]

theorem foldStrip_map_b32Char (k : Nat) : foldStrip (vs.map b32Char ++ List.replicate k padChar) = vs.map b32Char := by
  have hupper : vs.map (upper ∘ b32Char) = vs.map b32Char := List.map_congr_left fun v hv => upper_b32Char v (h v hv)
  have hpad : stripPad (vs.map b32Char) = vs.map b32Char := by
    refine List.rdropWhile_eq_self_iff.mpr fun hne hlast => ?_
    obtain ⟨v, hv, hc⟩ := List.mem_map.mp (List.getLast_mem hne)
    exact b32Char_ne_padChar v (h v hv) (hc.trans (isPad_iff.mp hlast))
  rw [foldStrip, stripPad_map_upper, stripPad_append_replicate, hpad, List.map_map, hupper]

/-- R94: the whole bytes of the string of the values' bits, from the left; the bits left over are dropped. -/
theorem b32Decode_map_b32Char (k : Nat) : b32Decode (vs.map b32Char ++ List.replicate k padChar) =
    .ok (bytesBE (valueOf 32 vs / 2 ^ (5 * vs.length % 8)) (5 * vs.length / 8)) := by
  have hfold := foldStrip_map_b32Char h k
  rcases b32Decode_cases (vs.map b32Char ++ List.replicate k padChar) with ⟨-, hbad⟩ | ⟨r, hr, -⟩
  · obtain ⟨c, hc, hnone⟩ := List.any_eq_true.mp (hfold ▸ hbad)
    obtain ⟨v, hv, rfl⟩ := List.mem_map.mp hc
    simp [b32Index_b32Char v (h v hv)] at hnone
  · rw [hr, eq_map_of_b32Decode_ok hr, hfold, filterMap_b32Index_map_b32Char h, List.length_map, bytesBE]
    refine congrArg _ (List.map_congr_left fun j hj => ?_)
    have hj := List.mem_range.mp hj
    rw [Nat.shiftRight_eq_div_pow, Nat.div_div_eq_div_mul, ← Nat.pow_add,
      show 5 * vs.length % 8 + 8 * (5 * vs.length / 8 - 1 - j) = 5 * vs.length - 8 * (j + 1) by omega]

end

/-- The fill is fewer than 5 bits, so all and only the bits of the bytes are whole bytes again. -/
theorem b32Decode_b32Encode (b : List Byte) : b32Decode (b32Encode b) = .ok b := by
  have hlen : 5 * charCount (8 * b.length) / 8 = b.length := by rw [charCount]; omega
  have hfill : 5 * charCount (8 * b.length) % 8 = fillBits (8 * b.length) := by rw [fillBits, charCount]; omega
  rw [b32Encode_eq, b32Decode_map_b32Char fun v => lt_of_mem_b32Values, length_b32Values, hlen, hfill, b32Values,
    valueOf_digitsBE, pow_charCount, Nat.mul_comm (2 ^ _), Nat.mul_mod_mul_right, Nat.mul_div_cancel _ (Nat.two_pow_pos _),
    Nat.pow_mul, bytesBE_mod_pow, bytesBE_valueOf]

end Sys2Proof.Machine
end

section
/-! SUPPORT. What a success says of its operands (spec/30_encoding.md R64): every check has passed, the response is that of the
operation's stored results, and its lanes hold them. -/

namespace Sys2Proof.Machine

/-! ### Checks that pass -/

section
variable {ε α β : Type} {x : Except ε α}

theorem exceptMap_eq_ok_iff {f : α → β} {b : β} : x.map f = .ok b ↔ ∃ a, x = .ok a ∧ f a = b := by
  cases x <;> simp [Except.map]

theorem exceptBind_eq_ok_iff {f : α → Except ε β} {b : β} : x.bind f = .ok b ↔ ∃ a, x = .ok a ∧ f a = .ok b := by
  cases x <;> simp [Except.bind]

end

section
variable {K n m : Nat} {d : Buffer} {b t key : List Byte}

theorem dataOperand_eq_ok_iff : dataOperand K n d = .ok b ↔ n ≤ Config.KEY_MAX K ∧ memRead d 0 n = b := by
  rcases dataOperand_cases K n d with ⟨h, e⟩ | ⟨h, e⟩ <;> rw [e]
  · exact iff_of_false nofun fun ⟨h', _⟩ => h.not_ge h'
  · rw [Except.ok.injEq, and_iff_right h]

theorem textOperand_eq_ok_iff : textOperand K n d = .ok t ↔ n ≤ Config.TXT_MAX K ∧ memRead d 0 n = t := by
  rcases textOperand_cases K n d with ⟨h, e⟩ | ⟨h, e⟩ <;> rw [e]
  · exact iff_of_false nofun fun ⟨h', _⟩ => h.not_ge h'
  · rw [Except.ok.injEq, and_iff_right h]

theorem digestOperand_eq_ok_iff : digestOperand n d = .ok b ↔ n = 20 ∧ memRead d 0 20 = b := by
  rcases digestOperand_cases n d with ⟨h, e⟩ | ⟨h, e⟩ <;> rw [e]
  · exact iff_of_false nofun fun ⟨h', _⟩ => h h'
  · rw [Except.ok.injEq, and_iff_right h]

theorem checkKey_eq_ok_iff : checkKey b = .ok key ↔ 0 < b.length ∧ b = key := by
  rcases checkKey_cases b with ⟨h, e⟩ | ⟨h, e⟩ <;> rw [e]
  · exact iff_of_false nofun fun ⟨h', _⟩ => h'.ne' h
  · rw [Except.ok.injEq, and_iff_right h]

theorem truncate_eq_ok_iff {v : Nat × List Byte} :
    truncate b n = .ok v ↔ (1 ≤ n ∧ n ≤ 9) ∧ (truncValue b, otpText (truncValue b) n) = v := by
  rw [truncate]
  rcases checkDigits_cases n with ⟨h, e⟩ | ⟨h, e⟩ <;> rw [e]
  · exact iff_of_false nofun (by omega)
  · rw [Except.ok.injEq, and_iff_right h]

theorem tStep_eq_ok_iff {w p : Nat} : tStep w p = .ok m ↔ 0 < p ∧ w / p = m := by
  rw [tStep]
  rcases checkPeriod_cases p with ⟨h, e⟩ | ⟨h, e⟩ <;> rw [e]
  · exact iff_of_false nofun (by omega)
  · rw [Except.ok.injEq, and_iff_right h]

theorem secretOf_eq_ok_iff : secretOf t = .ok key ↔ b32Decode t = .ok key := by
  rw [secretOf]
  cases b32Decode t <;> simp

theorem hotpCompute_eq_ok_iff : hotpCompute b m n = .ok t ↔
    (0 < b.length ∧ 1 ≤ n ∧ n ≤ 9) ∧ otpText (truncValue (hmacSha1 b (counterBlock m))) n = t := by
  rcases hotpCompute_cases b m n with ⟨h, e⟩ | ⟨-, h, e⟩ | ⟨h0, h, e⟩ <;> rw [e]
  · exact iff_of_false nofun (by omega)
  · exact iff_of_false nofun (by omega)
  · rw [Except.ok.injEq, and_iff_right ⟨h0, h⟩]

end

/-! ### Decodings -/

/-- R95: a decoding has `floor(5*n/8)` bytes, `n` the number of characters without the padding. -/
theorem length_of_b32Decode_ok {t r : List Byte} (h : b32Decode t = .ok r) :
    r.length = 5 * (stripPad t).length / 8 ∧ (stripPad t).length ≤ t.length := by
  have hfold : (foldStrip t).length = (stripPad t).length := by rw [foldStrip, stripPad_map_upper, List.length_map]
  refine ⟨?_, hfold ▸ length_foldStrip_le t⟩
  rcases b32Decode_cases t with ⟨herr, -⟩ | ⟨r', hr, -, hlen⟩
  · cases herr.symm.trans h
  · obtain rfl := Except.ok.inj (hr.symm.trans h)
    rw [hlen, hfold]

/-- R95: what a text that fits decodes to fits. -/
theorem length_le_of_b32Decode_ok {K n : Nat} {d : Buffer} {r : List Byte} (hn : n ≤ Config.TXT_MAX K)
    (h : b32Decode (memRead d 0 n) = .ok r) : r.length ≤ Config.KEY_MAX K := by
  obtain ⟨hlen, hle⟩ := length_of_b32Decode_ok h
  rw [length_memRead] at hle
  rw [Config.TXT_MAX] at hn
  rw [Config.KEY_MAX]
  omega

/-! ### The responses of a success -/

/-- R63, R64: the response of operation `i` when it raises no error. -/
def successResponse (i : Instr) : Response :=
  match i with
  | .b32enc _ _ | .hotp _ _ _ _ | .totp _ _ _ _ _ => .ofText (storedText i)
  | .b32dec _ _ | .hmac _ _ _ => .ofData (storedData i)
  | .trunc _ d _ => .ofTrunc (truncValue (memRead d 0 20)) (storedText i)
  | .tstep w p => .ofCounter (w.toNat / p.toNat)
  | .reserved7 => .ofError .illegalOp

theorem opResult_b32dec_ok {K n : Nat} {d : Buffer} {r : Response} (h : opResult K (.b32dec n d) = .ok r) :
    n ≤ Config.TXT_MAX K ∧ ∃ b, b32Decode (memRead d 0 n) = .ok b ∧ r = .ofData b := by
  rw [opResult, opB32dec_eq, exceptMap_eq_ok_iff] at h
  obtain ⟨b, hb, rfl⟩ := h
  obtain ⟨t, ht, hb⟩ := exceptBind_eq_ok_iff.mp hb
  obtain ⟨hn, rfl⟩ := textOperand_eq_ok_iff.mp ht
  exact ⟨hn, b, hb, rfl⟩

/-- R64: an operation that raises no error gives the response of its stored results. -/
theorem eq_successResponse {K : Nat} {i : Instr} {r : Response} (h : opResult K i = .ok r) : r = successResponse i := by
  cases i with
  | b32enc n d =>
    rw [opResult, opB32enc_eq, exceptMap_eq_ok_iff] at h
    obtain ⟨b, hb, rfl⟩ := h
    obtain ⟨-, rfl⟩ := dataOperand_eq_ok_iff.mp hb
    rfl
  | b32dec n d =>
    obtain ⟨-, b, hb, rfl⟩ := opResult_b32dec_ok h
    rw [successResponse, storedData, hb]
  | hmac n d c =>
    rw [opResult, opHmac_eq, exceptMap_eq_ok_iff] at h
    obtain ⟨key, hkey, rfl⟩ := h
    obtain ⟨b, hb, hkey⟩ := exceptBind_eq_ok_iff.mp hkey
    obtain ⟨-, rfl⟩ := dataOperand_eq_ok_iff.mp hb
    obtain ⟨-, rfl⟩ := checkKey_eq_ok_iff.mp hkey
    rfl
  | trunc n d g =>
    rw [opResult, opTrunc_eq, exceptMap_eq_ok_iff] at h
    obtain ⟨v, hv, rfl⟩ := h
    obtain ⟨b, hb, hv⟩ := exceptBind_eq_ok_iff.mp hv
    obtain ⟨-, rfl⟩ := digestOperand_eq_ok_iff.mp hb
    obtain ⟨-, rfl⟩ := truncate_eq_ok_iff.mp hv
    rfl
  | tstep w p =>
    rw [opResult, opTstep_eq, exceptMap_eq_ok_iff] at h
    obtain ⟨m, hm, rfl⟩ := h
    obtain ⟨-, rfl⟩ := tStep_eq_ok_iff.mp hm
    rfl
  | hotp n d c g =>
    rw [opResult, opHotp_eq, exceptMap_eq_ok_iff] at h
    obtain ⟨t, ht, rfl⟩ := h
    obtain ⟨b, hb, ht⟩ := exceptBind_eq_ok_iff.mp ht
    obtain ⟨-, rfl⟩ := dataOperand_eq_ok_iff.mp hb
    obtain ⟨-, rfl⟩ := hotpCompute_eq_ok_iff.mp ht
    rfl
  | totp n d w p g =>
    rw [opResult, opTotp_eq, exceptMap_eq_ok_iff] at h
    obtain ⟨s, hs, rfl⟩ := h
    obtain ⟨t, ht, hs⟩ := exceptBind_eq_ok_iff.mp hs
    obtain ⟨-, rfl⟩ := textOperand_eq_ok_iff.mp ht
    obtain ⟨key, hkey, hs⟩ := exceptBind_eq_ok_iff.mp hs
    obtain ⟨m, hm, hs⟩ := exceptBind_eq_ok_iff.mp hs
    obtain ⟨-, rfl⟩ := tStep_eq_ok_iff.mp hm
    obtain ⟨-, rfl⟩ := hotpCompute_eq_ok_iff.mp hs
    rw [successResponse, storedText, secretOf_eq_ok_iff.mp hkey]
    rfl
  | reserved7 => cases h

/-! ### The lanes of a success -/

/-- R41, R42: of the lanes of a stored sequence those below its length have a value, the byte stored there. -/
theorem laneValue_memWrite (v : List Byte) (k : Nat) : laneValue v.length (some (memWrite [] 0 v)) k = v[k]? := by
  rw [laneValue, read_memWrite (cap := v.length) rfl (by omega), Nat.zero_add]
  split_ifs with h h'
  · simp [h]
  · omega
  · rw [List.getElem?_eq_none (by omega)]

theorem textLane_successResponse (i : Instr) (k : Nat) :
    laneValue (lenValue (successResponse i).rtextLen) (successResponse i).rtext k = (storedText i)[k]? := by
  cases i with
  | b32enc | trunc | hotp | totp => exact laneValue_memWrite _ k
  | b32dec | hmac | tstep | reserved7 => rfl

theorem dataLane_successResponse (i : Instr) (k : Nat) :
    laneValue (lenValue (successResponse i).rdataLen) (successResponse i).rdata k = (storedData i)[k]? := by
  cases i with
  | b32dec | hmac => exact laneValue_memWrite _ k
  | b32enc | trunc | tstep | hotp | totp | reserved7 => rfl

/-! ### The registers of a state -/

section
variable {s : State}

@[simp] theorem State.complete_respRtextLane (r : Response) (k : Nat) :
    (s.complete r).respRtextLane k = laneValue (lenValue r.rtextLen) r.rtext k := rfl
@[simp] theorem State.complete_respRdataLane (r : Response) (k : Nat) :
    (s.complete r).respRdataLane k = laneValue (lenValue r.rdataLen) r.rdata k := rfl

/-- R26: without a response no register and no lane has a value. -/
theorem State.registers_of_none (h : s.resp = none) :
    (∀ k, s.respRtextLane k = none) ∧ (∀ k, s.respRdataLane k = none) ∧ s.respRtextLen = none ∧ s.respRdataLen = none ∧
      s.respRval = none ∧ s.respRctr = none := by
  simp [State.respRtextLane, State.respRdataLane, State.respRtextLen, State.respRdataLen, State.respRval, State.respRctr, h,
    laneValue]

end

/-- A lane above the bytes stored has no value, with or without the bound written out. -/
theorem ite_getElem?_none {α : Type} (l : List α) (k : Nat) : (if k < l.length then l[k]? else none) = l[k]? := by
  split_ifs with h
  · rfl
  · exact (List.getElem?_eq_none (Nat.le_of_not_lt h)).symm

end Sys2Proof.Machine
end

section
/-! SUPPORT. The request port can carry every byte sequence and text that fits (spec/00_scope.md R7, spec/30_encoding.md R75). -/

namespace Sys2Proof

theorem dataWf_memWrite {K : Nat} {b : List Byte} (h : b.length ≤ Config.KEY_MAX K) :
    dataWf K b.length (memWrite [] 0 b) = true := by
  have hfield := h.trans_lt (Nat.lt_log2_self (n := Config.KEY_MAX K))
  simp [dataWf, hfield, Buffer.wf_mono h (wf_memWrite_nil b)]

theorem textWf_memWrite {K : Nat} {t : List Byte} (h : t.length ≤ Config.TXT_MAX K) :
    textWf K t.length (memWrite [] 0 t) = true := by
  have hfield := h.trans_lt (Nat.lt_log2_self (n := Config.TXT_MAX K))
  simp [textWf, hfield, Buffer.wf_mono h (wf_memWrite_nil t)]

end Sys2Proof
end

section
/-! SUPPORT. The round trip through B32ENC and B32DEC (spec/40_base32.md section 3), and GENSECRET (spec/43_totp.md R156). -/

namespace Sys2Proof.Machine

variable {K : Nat}

/-- R95, R101: an encoding of a sequence that fits fits. -/
theorem length_b32Encode_le {b : List Byte} (h : b.length ≤ Config.KEY_MAX K) : (b32Encode b).length ≤ Config.TXT_MAX K := by
  rw [Config.KEY_MAX] at h
  rw [length_b32Encode, Config.TXT_MAX]
  omega

theorem responseTo_reqB32enc {b : List Byte} (h : b.length ≤ Config.KEY_MAX K) :
    responseTo K (reqB32enc b) = textResponse (b32Encode b) := by
  rw [reqB32enc, responseTo_b32enc_of_le h, Buffer.ofBytes, memRead_memWrite_nil]

/-- R76: the text that a B32ENC response carries, asked back with B32DEC. -/
theorem responseTo_b32dec_b32Encode {b : List Byte} (h : b.length ≤ Config.KEY_MAX K) :
    responseTo K (.b32dec (b32Encode b).length (memWrite [] 0 (b32Encode b))) = dataResponse b := by
  refine responseTo_b32dec_ok (length_b32Encode_le h) ?_
  rw [memRead_memWrite_nil, b32Decode_b32Encode]

theorem getD_drawBytes (f : Nat → Byte) {n k : Nat} (h : k < n) : (drawBytes f n).getD k 0 = f k := by
  simp [drawBytes, h]

/-- R156: within the capacity GENSECRET returns the encoding of the bytes drawn. -/
theorem genSecret_some (f : Nat → Byte) {n : Nat} (h : n ≤ Config.KEY_MAX K) :
    genSecret K (some f) n = .ok (b32Encode (drawBytes f n)) := by
  rw [genSecret, genSecretRequest]
  dsimp only
  rw [responseTo_reqB32enc (by rwa [length_drawBytes])]
  exact textResult_ofText _

/-- R101: bytes in whole groups of 5 need no padding. -/
theorem padChar_notMem_b32Encode {b : List Byte} (h : 5 ∣ b.length) : padChar ∉ b32Encode b := by
  have hpad : 8 * ((b.length + 4) / 5) - charCount (8 * b.length) = 0 := by rw [charCount]; omega
  rw [b32Encode_eq, hpad, List.replicate_zero, List.append_nil]
  intro hc
  obtain ⟨v, hv, hvc⟩ := List.mem_map.mp hc
  exact b32Char_ne_padChar v (lt_of_mem_b32Values hv) hvc

end Sys2Proof.Machine
end

section
/-! SUPPORT. OTP texts of one value with different digit counts, and HOTP and TOTP against the unit operations
(spec/42_hotp_truncator.md R139, spec/43_totp.md R159). -/

namespace Sys2Proof.Machine

/-! ### Digit counts -/

theorem decText_eq_digitsBE (v n : Nat) : decText v n = (digitsBE 10 n v).map fun c => BitVec.ofNat 8 (0x30 + c) := by
  rw [decText, digitsBE, List.map_map]
  rfl

/-- R133, R134: the text shows the low `n` decimal digits. -/
theorem otpText_eq_digitsBE (p n : Nat) : otpText p n = (digitsBE 10 n p).map fun c => BitVec.ofNat 8 (0x30 + c) := by
  rw [otpText, decText_eq_digitsBE, digitsBE_mod_pow]

/-- R134: the text for fewer digits is the end of the text for more. -/
theorem otpText_eq_drop (p : Nat) {m n : Nat} (h : n ≤ m) : otpText p n = (otpText p m).drop (m - n) := by
  obtain ⟨k, rfl⟩ := Nat.exists_eq_add_of_le' h
  rw [otpText_eq_digitsBE p n, otpText_eq_digitsBE p (k + n), digitsBE_add, List.map_append, Nat.add_sub_cancel,
    List.drop_left' (by rw [List.length_map, length_digitsBE])]

@[simp] theorem textValue_ofTrunc (p : Nat) (t : List Byte) : (Response.ofTrunc p t).textValue = some t := textValue_ofText t

/-! ### Unit operations -/

section
variable {K n : Nat} {d : Buffer} {b : List Byte} {c : BitVec Config.CTR_W} {g : BitVec Config.DIGITS_W}

@[simp] theorem textResult_ofTrunc (p : Nat) (t : List Byte) : textResult (.ofTrunc p t) = .ok t := textResult_ofText t

/-- R139: TRUNC of a digest that a response carries. -/
theorem truncOfResponse_dataResponse (h : b.length = 20) : truncOfResponse K (dataResponse b) g =
    textResult (if g.toNat < 1 ∨ 9 < g.toNat then errorResponse 3 else .ofText (otpText (truncValue b) g.toNat)) := by
  have hread : memRead (memWrite [] 0 b) 0 20 = b := h ▸ memRead_memWrite_nil b
  have hreq : truncOfResponse K (dataResponse b) g = textResult (responseTo K (.trunc b.length (memWrite [] 0 b) g)) := rfl
  rw [hreq, h, responseTo_trunc, if_neg (not_not.mpr rfl), hread]
  split_ifs
  · rfl
  · rw [textResult_ofTrunc, textResult_ofText]

/-- R139: HOTP and HMAC make the same checks; then TRUNC checks the digit count. -/
theorem hotpByUnits_eq : hotpByUnits K n d c g = textResult (responseTo K (.hotp n d c g)) := by
  rw [hotpByUnits, responseTo_hmac, responseTo_hotp]
  split_ifs with h h0 hg
  · rfl
  · rfl
  · rw [truncOfResponse_dataResponse (length_hmacSha1 _ _), if_pos hg]
  · rw [truncOfResponse_dataResponse (length_hmacSha1 _ _), if_neg hg]

/-- R159: HOTP of bytes that a response carries. -/
theorem responseTo_hotp_memWrite (h : b.length ≤ Config.KEY_MAX K) :
    responseTo K (.hotp b.length (memWrite [] 0 b) c g) = respond ((hotpCompute b c.toNat g.toNat).map .ofText) := by
  rw [responseTo_hotp_of_le h, memRead_memWrite_nil]

theorem totpByUnits_of_error {e : Err} {w : BitVec Config.NOW_W} {p : BitVec Config.PERIOD_W}
    (h : responseTo K (.b32dec n d) = errorResponse e.code) : totpByUnits K n d w p g = .error (mapDecodeError e.code) := by
  rw [totpByUnits, h]
  exact if_pos e.code_ne_zero

/-- R159: after a text that decodes, TSTEP and then HOTP by unit operations. -/
theorem totpByUnits_of_decoded {w : BitVec Config.NOW_W} {p : BitVec Config.PERIOD_W}
    (h : responseTo K (.b32dec n d) = dataResponse b) : totpByUnits K n d w p g =
      if p = 0 then .error 5 else hotpByUnits K b.length (memWrite [] 0 b) (BitVec.ofNat _ (w.toNat / p.toNat)) g := by
  rw [totpByUnits, h, responseTo_tstep]
  refine (if_neg (not_not.mpr rfl)).trans ?_
  split_ifs <;> rfl

theorem totpByUnits_eq (w : BitVec Config.NOW_W) (p : BitVec Config.PERIOD_W) :
    totpByUnits K n d w p g = textResult (responseTo K (.totp n d w p g)) := by
  rcases Nat.lt_or_ge (Config.TXT_MAX K) n with hn | hn
  · rw [totpByUnits_of_error (e := .badLength) (responseTo_b32dec_above hn), responseTo_totp_above hn]
    rfl
  · rcases b32Decode_cases (memRead d 0 n) with ⟨hd, -⟩ | ⟨key, hd, -⟩
    · rw [totpByUnits_of_error (e := .invalidEncoding) (responseTo_b32dec_undecodable hn hd),
        responseTo_totp_undecodable hn hd]
      rfl
    · have hkey := length_le_of_b32Decode_ok hn hd
      rw [totpByUnits_of_decoded (responseTo_b32dec_ok hn hd), responseTo_totp_decoded hn hd, hotpByUnits_eq,
        responseTo_hotp_memWrite hkey, toNat_periodCount, respond_hotpCompute]
      split_ifs <;> rfl

/-- R155: TOTP reads `now` through the count of whole periods alone. -/
theorem responseTo_totp_congr {w w' : BitVec Config.NOW_W} {p : BitVec Config.PERIOD_W}
    (h : w.toNat / p.toNat = w'.toNat / p.toNat) :
    responseTo K (.totp n d w p g) = responseTo K (.totp n d w' p g) := by
  have hstep : tStep w.toNat p.toNat = tStep w'.toNat p.toNat := by rw [tStep_toNat, tStep_toNat, h]
  rw [responseTo, responseTo, opResult, opResult, opTotp, opTotp, hstep]

end
end Sys2Proof.Machine
end

section
/-! SUPPORT. The invariant and the canonical form as propositions, and that every step keeps them (spec/10_state.md R21, R23;
spec/20_memory.md R40). -/

namespace Sys2Proof.Machine

variable {K : Nat} {s t : State} {P : EdgeIn → Prop}

/-! ### Inputs -/

/-- What holds of every presented input and of the quiet one holds of the coming edge's. -/
theorem State.edgeIn_of_forall (h : ∀ i ∈ s.inputs, P i) (hq : P EdgeIn.quiet) : P s.edgeIn := by
  rw [State.edgeIn]
  cases hi : s.inputs with
  | nil => exact hq
  | cons i is => exact h i (hi ▸ List.mem_cons_self)

theorem stepFor_inputs (h : stepFor K s = .next t) : t.inputs = s.inputs.tail := by
  obtain ⟨-, rfl⟩ | ⟨-, -, -, rfl⟩ | ⟨-, -, -, rfl⟩ | ⟨-, -, -, rfl⟩ | ⟨-, -, -, _, -, rfl⟩ | ⟨-, -, -, rfl⟩ |
    ⟨-, -, -, rfl⟩ := stepFor_cases h <;> rfl

/-! ### The invariant -/

/-- R21, R23: what the invariant says of a phase. -/
def State.phaseOk (K : Nat) (s : State) : Prop :=
  (s.st = .idle ∧ s.cmd = none ∧ s.resp = none ∧ s.left = 0) ∨
  (s.st = .busy ∧ s.resp = none ∧
    ∃ q, s.cmd = some q ∧ q.wf K = true ∧ 1 ≤ s.left ∧ s.left ≤ Config.latency K (q.toWord K)) ∨
  (s.st = .done ∧ s.cmd = none ∧ ∃ r, s.resp = some r ∧ r.wf K = true ∧ s.left = 0)

theorem State.inv_iff : s.inv K = true ↔ s.phaseOk K ∧ ∀ i ∈ s.inputs, i.req.wf K = true := by
  rw [State.inv, Bool.and_eq_true, List.all_eq_true, State.phaseOk]
  refine and_congr_left fun _ => ?_
  split
  next hst hcmd hresp => simp [hst, hcmd, hresp]
  next hst hcmd hresp => simp [hst, hcmd, hresp, and_assoc]
  next hst hcmd hresp => simp [hst, hcmd, hresp]
  next hidle hbusy hdone =>
    refine iff_of_false nofun ?_
    rintro (⟨hst, hcmd, hresp, -⟩ | ⟨hst, hresp, q, hcmd, -⟩ | ⟨hst, hcmd, r, hresp, -⟩)
    · exact hidle hst hcmd hresp
    · exact hbusy q hst hcmd hresp
    · exact hdone r hst hcmd hresp

theorem Request.wf_blank (K : Nat) : Request.blank.wf K = true := by simp [Request.wf, textWf, dataWf, Request.blank]

/-- R64: a response is sound whatever the request. -/
theorem execRequest_wf (hK : 4 ≤ K) (q : Request) : (execRequest K q).wf K = true := respond_opResult_wf hK _

/-- R21, R23: each kind of edge keeps the phase's part of the invariant. -/
theorem phaseOk_of_step (hK : 4 ≤ K) (hs : s.phaseOk K) (hq : s.edgeIn.req.wf K = true) (h : stepFor K s = .next t) :
    t.phaseOk K := by
  obtain ⟨-, rfl⟩ | ⟨-, -, -, rfl⟩ | ⟨-, hi, -, rfl⟩ | ⟨-, hb, hl, rfl⟩ | ⟨-, -, -, q, -, rfl⟩ | ⟨-, -, -, rfl⟩ |
    ⟨-, hd, -, rfl⟩ := stepFor_cases h
  · exact .inl ⟨rfl, rfl, rfl, rfl⟩
  · exact .inr (.inl ⟨rfl, rfl, _, rfl, hq, Nat.succ_pos _, Nat.le_refl _⟩)
  · exact hs
  · obtain ⟨hi, -⟩ | ⟨-, hr, q, hc, hwf, -, hle⟩ | ⟨hd, -⟩ := hs
    · cases hb.symm.trans hi
    · exact .inr (.inl ⟨hb, hr, q, hc, hwf, by rw [State.wait_left]; omega, by rw [State.wait_left]; omega⟩)
    · cases hb.symm.trans hd
  · exact .inr (.inr ⟨rfl, rfl, _, rfl, execRequest_wf hK q, rfl⟩)
  · exact .inl ⟨rfl, rfl, rfl, rfl⟩
  · exact hs

theorem inv_of_step (hK : 4 ≤ K) (hs : s.inv K = true) (h : stepFor K s = .next t) : t.inv K = true := by
  obtain ⟨hphase, hin⟩ := State.inv_iff.mp hs
  refine State.inv_iff.mpr ⟨phaseOk_of_step hK hphase ?_ h, ?_⟩
  · exact State.edgeIn_of_forall (P := fun i => i.req.wf K = true) hin (Request.wf_blank K)
  · rw [stepFor_inputs h]
    exact fun i hi => hin i (List.mem_of_mem_tail hi)

/-- R171: from a state of the invariant every edge has its next state. -/
theorem safeStep_of_inv (hs : s.inv K = true) : safeStep K s := by
  obtain ⟨hphase, -⟩ := State.inv_iff.mp hs
  cases hrst : s.edgeIn.rst with
  | true => exact ⟨_, stepFor_rst hrst⟩
  | false =>
    obtain ⟨hi, -⟩ | ⟨hb, -, q, hc, -⟩ | ⟨hd, -⟩ := hphase
    · exact ⟨_, stepFor_idle hrst hi⟩
    · rcases Nat.lt_or_ge 1 s.left with hl | hl
      · exact ⟨_, stepFor_wait hrst hb hl⟩
      · exact ⟨_, stepFor_completes hrst hb hl hc⟩
    · exact ⟨_, stepFor_done hrst hd⟩

/-! ### Canonical buffers -/

/-- R40: the payload buffers of a response, if it has any, are in canonical form. -/
def Response.buffersWf (K : Nat) (r : Response) : Prop :=
  Buffer.wf (Config.TXT_MAX K) (r.rtext.getD []) = true ∧ Buffer.wf (Config.KEY_MAX K) (r.rdata.getD []) = true

theorem Memory.wf_iff : Memory.wf K s = true ↔
    (∀ q, s.cmd = some q → buffersWf K q = true) ∧ (∀ r, s.resp = some r → r.buffersWf K) ∧
      ∀ i ∈ s.inputs, buffersWf K i.req = true := by
  rw [Memory.wf, Bool.and_eq_true, Bool.and_eq_true, List.all_eq_true, and_assoc]
  cases s.cmd <;> cases s.resp <;> simp [Response.buffersWf]

theorem payloadOk_iff {cap : Nat} {len : Option Nat} {buf : Option Buffer} : payloadOk cap len buf = true ↔
    (len = none ∧ buf = none) ∨ ∃ n b, len = some n ∧ buf = some b ∧ n ≤ cap ∧ Buffer.wf n b = true := by
  cases len <;> cases buf <;> simp [payloadOk]

theorem wf_getD_of_payloadOk {cap : Nat} {len : Option Nat} {buf : Option Buffer} (h : payloadOk cap len buf = true) :
    Buffer.wf cap (buf.getD []) = true := by
  obtain ⟨-, rfl⟩ | ⟨n, b, -, rfl, hn, hb⟩ := payloadOk_iff.mp h
  · rfl
  · exact Buffer.wf_mono hn hb

theorem Response.payloadOk_of_wf {r : Response} (h : r.wf K = true) :
    payloadOk (Config.TXT_MAX K) r.rtextLen r.rtext = true ∧ payloadOk (Config.KEY_MAX K) r.rdataLen r.rdata = true := by
  simp only [Response.wf, Bool.and_eq_true] at h
  obtain ⟨⟨-, htext⟩, hdata⟩ := h
  exact ⟨htext, hdata⟩

theorem Response.buffersWf_of_wf {r : Response} (h : r.wf K = true) : r.buffersWf K :=
  (Response.payloadOk_of_wf h).imp wf_getD_of_payloadOk wf_getD_of_payloadOk

/-- R22, R23: the request a step leaves latched is the one of before, or the one presented. -/
theorem cmd_of_step {q : Request} (h : stepFor K s = .next t) (hq : t.cmd = some q) : s.cmd = some q ∨ q = s.edgeIn.req := by
  obtain ⟨-, rfl⟩ | ⟨-, -, -, rfl⟩ | ⟨-, -, -, rfl⟩ | ⟨-, -, -, rfl⟩ | ⟨-, -, -, _, -, rfl⟩ | ⟨-, -, -, rfl⟩ |
    ⟨-, -, -, rfl⟩ := stepFor_cases h
  · cases hq
  · exact .inr (Option.some.inj hq).symm
  · exact .inl hq
  · exact .inl hq
  · cases hq
  · cases hq
  · exact .inl hq

/-- R23, R25: the response a step leaves is the one of before, or `Exec` of a request. -/
theorem resp_of_step {r : Response} (h : stepFor K s = .next t) (hr : t.resp = some r) :
    s.resp = some r ∨ ∃ q, r = execRequest K q := by
  obtain ⟨-, rfl⟩ | ⟨-, -, -, rfl⟩ | ⟨-, -, -, rfl⟩ | ⟨-, -, -, rfl⟩ | ⟨-, -, -, q, -, rfl⟩ | ⟨-, -, -, rfl⟩ |
    ⟨-, -, -, rfl⟩ := stepFor_cases h
  · cases hr
  · cases hr
  · exact .inl hr
  · exact .inl hr
  · exact .inr ⟨q, (Option.some.inj hr).symm⟩
  · cases hr
  · exact .inl hr

theorem memoryWf_of_step (hK : 4 ≤ K) (hs : Memory.wf K s = true) (h : stepFor K s = .next t) : Memory.wf K t = true := by
  obtain ⟨hcmd, hresp, hin⟩ := Memory.wf_iff.mp hs
  refine Memory.wf_iff.mpr ⟨fun q hq => ?_, fun r hr => ?_, ?_⟩
  · obtain hq | rfl := cmd_of_step h hq
    · exact hcmd q hq
    · exact State.edgeIn_of_forall (P := fun i => buffersWf K i.req = true) hin rfl
  · obtain hr | ⟨q, rfl⟩ := resp_of_step h hr
    · exact hresp r hr
    · exact Response.buffersWf_of_wf (execRequest_wf hK q)
  · rw [stepFor_inputs h]
    exact fun i hi => hin i (List.mem_of_mem_tail hi)

end Sys2Proof.Machine
end

section
/-! SUPPORT. What a step reads (spec/20_memory.md section 4) and runs that stay in DONE or in IDLE (spec/70_reset_and_hazards.md
R195, R202). -/

namespace Sys2Proof.Machine

variable {n : Nat} {s s' t : State}

/-- R195: a step that ends in BUSY waits on, or accepts. -/
theorem busy_of_step (h : step s = .next t) (ht : t.st = .busy) :
    (s.st = .busy ∧ t.cmd = s.cmd) ∨
    (s.st = .idle ∧ s.edgeIn.reqValid = true ∧ s.edgeIn.rst = false ∧ t.cmd = some s.edgeIn.req) := by
  obtain ⟨-, rfl⟩ | ⟨hrst, hi, hv, rfl⟩ | ⟨-, hi, -, rfl⟩ | ⟨-, hb, -, rfl⟩ | ⟨-, -, -, _, -, rfl⟩ | ⟨-, -, -, rfl⟩ |
    ⟨-, hd, -, rfl⟩ := step_cases h
  · cases ht
  · exact .inr ⟨hi, hv, hrst, rfl⟩
  · cases hi.symm.trans ht
  · exact .inl ⟨hb, rfl⟩
  · cases ht
  · cases ht
  · cases hd.symm.trans ht

/-- Two states agree in all but the inputs and the edge count. -/
def State.sameCore (s t : State) : Prop := s.st = t.st ∧ s.cmd = t.cmd ∧ s.resp = t.resp ∧ s.left = t.left

/-- R50, R194: outside IDLE a step reads `rst` and `resp_ready` of the inputs, and not the request port. -/
theorem step_sameCore (hs : s.st ≠ .idle) (hsame : s'.sameCore s) (hrst : s'.edgeIn.rst = s.edgeIn.rst)
    (hready : s'.edgeIn.respReady = s.edgeIn.respReady) (h : step s = .next t) :
    ∃ t', step s' = .next t' ∧ t'.sameCore t := by
  obtain ⟨hst, hcmd, hresp, hleft⟩ := hsame
  obtain ⟨hr, rfl⟩ | ⟨-, hi, -⟩ | ⟨-, hi, -⟩ | ⟨hr, hb, hl, rfl⟩ | ⟨hr, hb, hl, q, hq, rfl⟩ | ⟨hr, hd, hv, rfl⟩ |
    ⟨hr, hd, hv, rfl⟩ := step_cases h
  · exact ⟨_, step_rst (hrst.trans hr), rfl, rfl, rfl, rfl⟩
  · exact absurd hi hs
  · exact absurd hi hs
  · exact ⟨_, step_wait (hrst.trans hr) (hst.trans hb) (hleft ▸ hl), hst, hcmd, hresp, congrArg (· - 1) hleft⟩
  · exact ⟨_, step_completes (hrst.trans hr) (hst.trans hb) (hleft ▸ hl) (hcmd.trans hq), rfl, rfl, rfl, rfl⟩
  · exact ⟨_, step_retire (hst.trans hd) (hready.trans hv) (hrst.trans hr), rfl, rfl, rfl, rfl⟩
  · exact ⟨_, step_hold_done (hst.trans hd) (hready.trans hv) (hrst.trans hr), hst, hcmd, hresp, hleft⟩

/-! ### A response that is held -/

/-- `rst` and `resp_ready` are low at each of the next `n` edges. -/
def State.heldFor (n : Nat) (s : State) : Prop :=
  ∀ k < n, (s.inputs.getD k EdgeIn.quiet).rst = false ∧ (s.inputs.getD k EdgeIn.quiet).respReady = false

theorem State.heldFor_succ :
    s.heldFor (n + 1) ↔ (s.edgeIn.rst = false ∧ s.edgeIn.respReady = false) ∧ s.tick.heldFor n := by
  rw [State.heldFor, Nat.forall_lt_succ_left, s.edgeIn_eq_getD]
  simp [State.heldFor]

theorem State.heldFor_of_forall (h : ∀ i ∈ s.inputs, i.rst = false ∧ i.respReady = false) : s.heldFor n := by
  intro k _
  rw [List.getD_eq_getElem?_getD]
  cases hk : s.inputs[k]? with
  | none => exact ⟨rfl, rfl⟩
  | some i => exact h i (List.mem_of_getElem? hk)

/-- R25, R50: in DONE a response is held through any number of edges without RESET and RETIRE. -/
theorem stepN_held (hs : s.st = .done) (h : s.heldFor n) : ∃ t, stepN n s = some t ∧ t.st = .done ∧ t.resp = s.resp := by
  induction n generalizing s with
  | zero => exact ⟨s, rfl, hs, rfl⟩
  | succ n ih =>
    obtain ⟨⟨hrst, hready⟩, h'⟩ := State.heldFor_succ.mp h
    rw [stepN_succ (step_hold_done hs hready hrst)]
    exact ih (s := s.hold) hs h'

/-! ### A run that has ended -/

/-- R202: a run has ended and nothing is held. -/
def State.endedEmpty (s : State) : Prop := s.ended = true ∧ s.cmd = none ∧ s.resp = none

theorem State.ended_iff : s.ended = true ↔ s.st = .idle ∧ ∀ i ∈ s.inputs, i.reqValid = false := by
  simp [State.ended]

theorem endedEmpty_step (h : s.endedEmpty) : ∃ t, step s = .next t ∧ t.endedEmpty := by
  obtain ⟨hended, hcmd, hresp⟩ := h
  obtain ⟨hidle, hin⟩ := State.ended_iff.mp hended
  have htail : ∀ i ∈ s.inputs.tail, i.reqValid = false := fun i hi => hin i (List.mem_of_mem_tail hi)
  cases hrst : s.edgeIn.rst with
  | true => exact ⟨_, step_rst hrst, State.ended_iff.mpr ⟨rfl, htail⟩, rfl, rfl⟩
  | false =>
    have hvalid : s.edgeIn.reqValid = false := State.edgeIn_of_forall (P := (·.reqValid = false)) hin rfl
    refine ⟨s.hold, ?_, State.ended_iff.mpr ⟨hidle, htail⟩, hcmd, hresp⟩
    rw [step_idle hrst hidle, hvalid]
    rfl

theorem stepN_endedEmpty (h : s.endedEmpty) : ∃ t, stepN n s = some t ∧ t.endedEmpty := by
  induction n generalizing s with
  | zero => exact ⟨s, rfl, h⟩
  | succ n ih =>
    obtain ⟨t, ht, h'⟩ := endedEmpty_step h
    rw [stepN_succ ht]
    exact ih h'

theorem endedEmpty_of_inv {K : Nat} (hinv : s.inv K = true) (h : s.ended = true) : s.endedEmpty := by
  obtain ⟨hidle, -⟩ := State.ended_iff.mp h
  obtain ⟨⟨-, hc, hr, -⟩ | ⟨hb, -⟩ | ⟨hd, -⟩, -⟩ := State.inv_iff.mp hinv
  · exact ⟨h, hc, hr⟩
  · cases hidle.symm.trans hb
  · cases hidle.symm.trans hd

/-! ### The ports -/

section
variable {K : Nat}

theorem portValue_of_some {w : Nat} {r : RespReg} {v : Option (BitVec w)} {x : BitVec w} (h : v = some x) :
    s.portValue r v = x := by
  rw [h]
  rfl

/-- R26, R42: a lane that has a value shows it at the port. -/
theorem getD_map_lanes {f : Nat → Option Byte} {free : Nat → Byte} {cap k : Nat} {v : Byte} (hk : k < cap)
    (h : f k = some v) : ((List.range cap).map fun i => (f i).getD (free i)).getD k 0 = v := by
  simp [hk, h]

/-- R26: a length register is wide enough for every length up to the capacity. -/
theorem toNat_ofNat_of_le_capacity {cap v : Nat} (h : v ≤ cap) : (BitVec.ofNat (Nat.log2 cap + 1) v).toNat = v := by
  rw [BitVec.toNat_ofNat, Nat.mod_eq_of_lt (h.trans_lt Nat.lt_log2_self)]

theorem le_of_payloadOk {cap v : Nat} {buf : Option Buffer} (h : payloadOk cap (some v) buf = true) : v ≤ cap := by
  obtain ⟨h, -⟩ | ⟨n, _, hn, -, hle, -⟩ := payloadOk_iff.mp h
  · cases h
  · obtain rfl := Option.some.inj hn
    exact hle

/-- R26, R42: a length register of a sound payload shows its length at the port. -/
theorem toNat_portValue_len {cap v : Nat} {r : RespReg} {len : Option Nat} {buf : Option Buffer}
    (hok : payloadOk cap len buf = true) (h : len = some v) :
    (s.portValue r (len.map (BitVec.ofNat (Nat.log2 cap + 1)))).toNat = v := by
  subst h
  exact toNat_ofNat_of_le_capacity (le_of_payloadOk hok)

/-- R42: the payloads of a pending response, and of none. -/
theorem payloadOk_of_resp (hwf : ∀ r, s.resp = some r → r.wf K = true) :
    payloadOk (Config.TXT_MAX K) s.respRtextLen (s.resp.bind (·.rtext)) = true ∧
      payloadOk (Config.KEY_MAX K) s.respRdataLen (s.resp.bind (·.rdata)) = true := by
  rw [State.respRtextLen, State.respRdataLen]
  cases hr : s.resp with
  | none => exact ⟨rfl, rfl⟩
  | some r => exact Response.payloadOk_of_wf (hwf r hr)

/-- R26: the ports show every register and lane of the pending response that has a value. -/
theorem ports_show_resp (hwf : ∀ r, s.resp = some r → r.wf K = true) :
    (∀ v, s.respErr = some v → (s.ports K).err = v) ∧
    (∀ v, s.respRtextLen = some v → (s.ports K).rtextLen.toNat = v) ∧
    (∀ v, s.respRdataLen = some v → (s.ports K).rdataLen.toNat = v) ∧
    (∀ v, s.respRval = some v → (s.ports K).rval = v) ∧ (∀ v, s.respRctr = some v → (s.ports K).rctr = v) ∧
    (∀ k < Config.TXT_MAX K, ∀ v, s.respRtextLane k = some v → (s.ports K).rtext.getD k 0 = v) ∧
    (∀ k < Config.KEY_MAX K, ∀ v, s.respRdataLane k = some v → (s.ports K).rdata.getD k 0 = v) := by
  obtain ⟨htext, hdata⟩ := payloadOk_of_resp hwf
  exact ⟨fun _ => portValue_of_some, fun _ => toNat_portValue_len htext, fun _ => toNat_portValue_len hdata,
    fun _ => portValue_of_some, fun _ => portValue_of_some, fun _ hk _ => getD_map_lanes hk,
    fun _ hk _ => getD_map_lanes hk⟩

end

/-! ### The COMPLETE edge of a fetched word -/

theorem State.latched_edgeIn_rst (s : State) (q : Request) : (s.latched q).edgeIn.rst = false := by
  rw [State.edgeIn, State.latched]
  cases s.inputs <;> rfl

theorem decode_of_decodeTableWord {nbits w : Nat} {i : Instr} (h : decodeTableWord nbits w = some i) :
    decode (Request.ofWord Config.K (tableWord nbits w)) = i := by
  rw [decodeTableWord, decodeWord] at h
  split at h
  next i' hi =>
    split at hi
    · exact (Except.ok.inj hi).trans (Option.some.inj h)
    · cases hi
  next => cases h

end Sys2Proof.Machine
end

section
/-! SUPPORT. The packed request (log entry 6): a field put below the fields after it, the lanes of a payload as one field, and the
request and its word as each other's inverse. -/

namespace Sys2Proof

/-! ### One field below the others -/

section
variable {a a' w n r r' : Nat}

/-- A field that fits its width and the fields above it can be told from each other. -/
theorem pack_inj (ha : a < 2 ^ w) (ha' : a' < 2 ^ w) (h : a + 2 ^ w * r = a' + 2 ^ w * r') : a = a' ∧ r = r' := by
  have hmod := congrArg (· % 2 ^ w) h
  have hdiv := congrArg (· / 2 ^ w) h
  simp only [Nat.add_mul_mod_self_left, Nat.mod_eq_of_lt ha, Nat.mod_eq_of_lt ha'] at hmod
  simp only [Nat.add_mul_div_left _ _ (Nat.two_pow_pos w), Nat.div_eq_of_lt ha, Nat.div_eq_of_lt ha', Nat.zero_add] at hdiv
  exact ⟨hmod, hdiv⟩

theorem pack_lt (ha : a < 2 ^ w) (hr : r < 2 ^ n) : a + 2 ^ w * r < 2 ^ (w + n) := by
  calc a + 2 ^ w * r < 2 ^ w * (r + 1) := by rw [Nat.mul_add_one]; omega
    _ ≤ 2 ^ w * 2 ^ n := Nat.mul_le_mul_left _ hr
    _ = 2 ^ (w + n) := (Nat.pow_add 2 w n).symm

/-- The `w` bits of a word from bit `lo` up, and the bits above them. -/
theorem shiftRight_mod_add (word lo w : Nat) :
    word >>> lo % 2 ^ w + 2 ^ w * (word >>> (lo + w)) = word >>> lo := by
  rw [Nat.shiftRight_add, Nat.shiftRight_eq_div_pow _ w, Nat.mod_add_div]

end

@[simp] theorem toNat_wordField (word lo w : Nat) : (wordField word lo w).toNat = word >>> lo % 2 ^ w :=
  BitVec.toNat_ofNat _ _

/-! ### A payload as a field -/

section
variable {cap n : Nat} {b b' : Buffer}

theorem lanesToNat_memRead_lt (b : Buffer) (n : Nat) : lanesToNat (memRead b 0 n) < 2 ^ (8 * n) := by
  have h := lanesToNat_lt (memRead b 0 n)
  rwa [length_memRead, show 256 = 2 ^ 8 from rfl, ← Nat.pow_mul] at h

theorem natToLanes_eq_map (n w : Nat) : natToLanes n w = (List.range n).map fun k => BitVec.ofNat 8 (w / 256 ^ k) := by
  induction n generalizing w with
  | zero => rfl
  | succ n ih =>
    rw [natToLanes, ih, List.range_succ_eq_map, List.map_cons, List.map_map, Nat.pow_zero, Nat.div_one]
    refine congrArg _ (List.map_congr_left fun k _ => ?_)
    rw [Function.comp, Nat.succ_eq_add_one, Nat.pow_succ', Nat.div_div_eq_div_mul]

theorem lanesToNat_natToLanes_mod (n w : Nat) : lanesToNat (natToLanes n w) = w % 2 ^ (8 * n) := by
  induction n generalizing w with
  | zero => rw [Nat.mul_zero, Nat.pow_zero, Nat.mod_one]; rfl
  | succ n ih =>
    rw [natToLanes, lanesToNat, ih, Nat.mul_succ, Nat.add_comm (8 * n), Nat.pow_add, Nat.mod_mul, BitVec.toNat_ofNat]

/-- R45: the lanes of the buffer a port vector stands for. -/
theorem memRead_ofVector (n w : Nat) : memRead (Buffer.ofVector n 0 w) 0 n = natToLanes n w := by
  rw [memRead, natToLanes_eq_map]
  exact List.map_congr_left fun k hk => Buffer.read_ofVector (List.mem_range.mp hk)

theorem buffer_eq_of_lanesToNat_eq (hb : Buffer.wf cap b = true) (hb' : Buffer.wf cap b' = true)
    (h : lanesToNat (memRead b 0 cap) = lanesToNat (memRead b' 0 cap)) : b = b' := by
  rw [← Buffer.ofVector_lanesToNat hb, ← Buffer.ofVector_lanesToNat hb', h]

theorem wf_ofVector_zero (n w : Nat) : Buffer.wf n (Buffer.ofVector n 0 w) = true := by
  simpa using Buffer.wf_ofVector n 0 w

end

/-! ### The whole request -/

section
variable {K word : Nat} {q q' : Request}

theorem Request.wf_iff : q.wf K = true ↔
    (q.textLen < 2 ^ Config.TLEN_W K ∧ Buffer.wf (Config.TXT_MAX K) q.text = true) ∧
      q.dataLen < 2 ^ Config.DLEN_W K ∧ Buffer.wf (Config.KEY_MAX K) q.data = true := by
  simp only [Request.wf, textWf, dataWf, Bool.and_eq_true, decide_eq_true_iff]

theorem Request.wf_ofWord (K word : Nat) : (Request.ofWord K word).wf K = true :=
  Request.wf_iff.mpr ⟨⟨BitVec.isLt _, wf_ofVector_zero _ _⟩, BitVec.isLt _, wf_ofVector_zero _ _⟩

/-- The word of a request has no bit above its last field. -/
theorem Request.toWord_lt (K : Nat) (q : Request) : q.toWord K < 2 ^ reqBits K := by
  have hmod (x w : Nat) : x % 2 ^ w < 2 ^ w := Nat.mod_lt _ (Nat.two_pow_pos w)
  have h := pack_lt q.op.isLt <| pack_lt q.digits.isLt <| pack_lt q.now.isLt <| pack_lt q.period.isLt <| pack_lt q.ctr.isLt <|
    pack_lt (hmod q.textLen (Config.TLEN_W K)) <| pack_lt (lanesToNat_memRead_lt q.text (Config.TXT_MAX K)) <|
    pack_lt (hmod q.dataLen (Config.DLEN_W K)) <| lanesToNat_memRead_lt q.data (Config.KEY_MAX K)
  exact h.trans_eq (congrArg (2 ^ ·) (by rw [reqBits]; omega))

/-- R60: each field is cut from the word where the fields before it end, so the fields make up the word again. -/
theorem Request.toWord_ofWord (h : word < 2 ^ reqBits K) : (Request.ofWord K word).toWord K = word := by
  have hdata : word >>> dataAt K < 2 ^ (8 * Config.KEY_MAX K) := by
    rw [Nat.shiftRight_eq_div_pow]
    refine Nat.div_lt_of_lt_mul ?_
    rwa [← Nat.pow_add]
  rw [Request.toWord, Request.ofWord]
  simp only [toNat_wordField, memRead_ofVector, lanesToNat_natToLanes_mod, Nat.mod_mod, Nat.mod_eq_of_lt hdata]
  rw [shiftRight_mod_add word (dataLenAt K), shiftRight_mod_add word (textAt K), shiftRight_mod_add word 167,
    shiftRight_mod_add word 103 64, shiftRight_mod_add word 71 32, shiftRight_mod_add word 7 64,
    shiftRight_mod_add word 3 4, shiftRight_mod_add word 0 3]
  rfl

/-- R7, R60: well-formed requests with one word have the same fields, one after the other. -/
theorem Request.toWord_inj (hq : q.wf K = true) (hq' : q'.wf K = true) (h : q.toWord K = q'.toWord K) : q = q' := by
  obtain ⟨⟨htl, ht⟩, hdl, hd⟩ := Request.wf_iff.mp hq
  obtain ⟨⟨htl', ht'⟩, hdl', hd'⟩ := Request.wf_iff.mp hq'
  simp only [Request.toWord, Nat.mod_eq_of_lt htl, Nat.mod_eq_of_lt htl', Nat.mod_eq_of_lt hdl, Nat.mod_eq_of_lt hdl'] at h
  obtain ⟨hop, h⟩ := pack_inj q.op.isLt q'.op.isLt h
  obtain ⟨hdigits, h⟩ := pack_inj q.digits.isLt q'.digits.isLt h
  obtain ⟨hnow, h⟩ := pack_inj q.now.isLt q'.now.isLt h
  obtain ⟨hperiod, h⟩ := pack_inj q.period.isLt q'.period.isLt h
  obtain ⟨hctr, h⟩ := pack_inj q.ctr.isLt q'.ctr.isLt h
  obtain ⟨htextLen, h⟩ := pack_inj htl htl' h
  obtain ⟨htext, h⟩ := pack_inj (lanesToNat_memRead_lt _ _) (lanesToNat_memRead_lt _ _) h
  obtain ⟨hdataLen, hdata⟩ := pack_inj hdl hdl' h
  cases q
  cases q'
  simp only [Request.mk.injEq]
  exact ⟨BitVec.eq_of_toNat_eq hop, BitVec.eq_of_toNat_eq hdigits, BitVec.eq_of_toNat_eq hnow,
    BitVec.eq_of_toNat_eq hperiod, BitVec.eq_of_toNat_eq hctr, htextLen, buffer_eq_of_lanesToNat_eq ht ht' htext, hdataLen,
    buffer_eq_of_lanesToNat_eq hd hd' hdata⟩

theorem Request.ofWord_toWord (hq : q.wf K = true) : Request.ofWord K (q.toWord K) = q :=
  Request.toWord_inj (Request.wf_ofWord K _) hq (Request.toWord_ofWord (q.toWord_lt K))

end

/-! ### Decoding bytes -/

section
variable {K word : Nat} {i : Instr} {bs : List Byte}

/-- R75: the laws of the request form, for every operation. -/
theorem requestForm (i : Instr) : Laws.RequestForm.Statement i := by
  cases i with
  | b32enc => exact Laws.RequestForm.b32enc ..
  | b32dec => exact Laws.RequestForm.b32dec ..
  | hmac => exact Laws.RequestForm.hmac ..
  | trunc => exact Laws.RequestForm.trunc ..
  | tstep => exact Laws.RequestForm.tstep ..
  | hotp => exact Laws.RequestForm.hotp ..
  | totp => exact Laws.RequestForm.totp ..
  | reserved7 => exact Laws.RequestForm.reserved7

theorem decodeWord_of_lt (h : word < 2 ^ reqBits K) : decodeWord K word = .ok (decode (Request.ofWord K word)) := by
  rw [decodeWord, if_pos (by rw [Nat.shiftRight_eq_div_pow, Nat.div_eq_of_lt h])]

theorem decodeBytes_of_length (h : bs.length = reqBytes K) : decodeBytes K bs = decodeWord K (lanesToNat bs) := by
  rw [decodeBytes, if_neg (by omega), if_neg (by omega)]

theorem decodeBytes_encode (h : i.wf K = true) : decodeBytes K (encode K i) = .ok i := by
  obtain ⟨hdecode, hwf⟩ := requestForm i
  have hlt := i.toRequest.toWord_lt K
  have hbytes : i.toRequest.toWord K < 2 ^ (8 * reqBytes K) :=
    hlt.trans_le (Nat.pow_le_pow_right (by decide) (by rw [reqBytes]; omega))
  rw [encode, decodeBytes_of_length (length_natToLanes _ _), lanesToNat_natToLanes_mod, encodeWord, Nat.mod_eq_of_lt hbytes,
    decodeWord_of_lt hlt, Request.ofWord_toWord (by rwa [hwf]), hdecode]

/-- R66: the operation of a request the port can carry has operands the port can carry. -/
theorem wf_decode {q : Request} (h : q.wf K = true) : (decode q).wf K = true := by
  obtain ⟨htext, hdata⟩ := (Bool.and_eq_true _ _).mp h
  rw [decode_eq]
  split_ifs
  · exact hdata
  · exact htext
  · exact hdata
  · exact hdata
  · rfl
  · exact hdata
  · exact htext
  · rfl

end

end Sys2Proof
end

section
/-! SUPPORT. The error matrix (spec/60_exceptions.md R171) against the causes an operation looks for (R170). -/

namespace Sys2Proof.Machine

variable {K : Nat} {i : Instr} {e : Err}

theorem mem_of_firstCause {l : List (Bool × Err)} (h : firstCause l = e.code) : ∃ b, (b, e) ∈ l := by
  induction l with
  | nil => exact absurd h.symm e.code_ne_zero
  | cons c l ih =>
    obtain ⟨b, e'⟩ := c
    rw [firstCause_cons] at h
    split at h
    · exact ⟨b, by rw [← Err.code_injective h]; exact List.mem_cons_self⟩
    · obtain ⟨b', hb'⟩ := ih h
      exact ⟨b', List.mem_cons_of_mem _ hb'⟩

/-- R170, R171: the matrix marks the causes of every operation. -/
theorem errorMatrix_of_mem_causes {b : Bool} (h : (b, e) ∈ causes K i) : errorMatrix i.toRequest.op.toNat e = true := by
  have hall : ∀ c ∈ causes K i, errorMatrix i.toRequest.op.toNat c.2 = true := by
    cases i <;> simp [causes, errorMatrix, Instr.toRequest]
  exact hall _ h

theorem opResult_eq_error_iff_firstCause : opResult K i = .error e ↔ firstCause (causes K i) = e.code := by
  rw [← responseTo_err_eq_code_iff, responseTo_err_eq_firstCause]

/-- R171: no error is raised that the matrix does not mark. -/
theorem errorMatrix_of_opResult (h : opResult K i = .error e) : errorMatrix i.toRequest.op.toNat e = true := by
  obtain ⟨b, hb⟩ := mem_of_firstCause (opResult_eq_error_iff_firstCause.mp h)
  exact errorMatrix_of_mem_causes hb

/-- R171: for every pair that the matrix marks, operands that raise the error: a length one above the capacity, a digest of no
bytes, the text of one byte 0x00, the empty key and text, no period, no digit count, the text `MY`. -/
def raisingOperands (K : Nat) : List (Instr × Err) :=
  [(.b32enc (5 * K + 1) [], .badLength), (.b32dec (8 * K + 1) [], .badLength), (.hmac (5 * K + 1) [] 0, .badLength),
    (.trunc 0 [] 0, .badLength), (.hotp (5 * K + 1) [] 0 0, .badLength), (.totp (8 * K + 1) [] 0 0 0, .badLength),
    (.b32dec 1 [], .invalidEncoding), (.hmac 0 [] 0, .invalidSecret), (.hotp 0 [] 0 0, .invalidSecret),
    (.totp 1 [] 0 0 0, .invalidSecret), (.trunc 20 [] 0, .invalidDigitCount), (.hotp 1 [] 0 0, .invalidDigitCount),
    (.totp 2 [(0, 0x4D), (1, 0x59)] 0 1 0, .invalidDigitCount), (.tstep 0 0, .invalidPeriod),
    (.totp 0 [] 0 0 0, .invalidPeriod), (.reserved7, .illegalOp)]

/-- The error of operands whose length is below every capacity is that of the causes after the length. -/
theorem opResult_eq_error_of_short {l : List (Bool × Err)} {cap n : Nat} {e' : Err} (hn : n < cap)
    (hi : causes K i = (decide (cap < n), e') :: l) (h : firstCause l = e.code) : opResult K i = .error e :=
  opResult_eq_error_iff_firstCause.mpr (by rw [hi, firstCause_cons_of_not _ _ hn.not_gt, h])

theorem opResult_raisingOperands (hK : 4 ≤ K) : ∀ p ∈ raisingOperands K, opResult K p.1 = .error p.2 := by
  have hkey {n : Nat} (hn : n < 4) : n < 5 * K := by omega
  have htext {n : Nat} (hn : n < 4) : n < 8 * K := by omega
  have habove (cap : Nat) : cap < cap + 1 := Nat.lt_succ_self cap
  simp only [raisingOperands, List.forall_mem_cons]
  exact ⟨opResult_eq_badLength_iff.mpr (habove _),
    opResult_eq_badLength_iff.mpr (habove _),
    opResult_eq_badLength_iff.mpr (habove _),
    opResult_eq_badLength_iff.mpr (by decide : 0 ≠ 20),
    opResult_eq_badLength_iff.mpr (habove _),
    opResult_eq_badLength_iff.mpr (habove _),
    opResult_eq_error_of_short (htext (by decide : 1 < 4)) rfl rfl,
    opResult_eq_error_of_short (hkey (by decide : 0 < 4)) rfl rfl,
    opResult_eq_error_of_short (hkey (by decide : 0 < 4)) rfl rfl,
    opResult_eq_error_of_short (htext (by decide : 1 < 4)) rfl rfl,
    rfl,
    opResult_eq_error_of_short (hkey (by decide : 1 < 4)) rfl rfl,
    opResult_eq_error_of_short (htext (by decide : 2 < 4)) rfl rfl,
    rfl,
    opResult_eq_error_of_short (htext (by decide : 0 < 4)) rfl rfl,
    rfl, nofun⟩

theorem wf_raisingOperands : ∀ p ∈ raisingOperands Config.K, p.1.wf Config.K = true := by decide

/-- R171: every pair that the matrix marks has its operands in the list. -/
theorem exists_raisingOperands {op : BitVec 3} (h : errorMatrix op.toNat e = true) :
    ∃ i, (i, e) ∈ raisingOperands K ∧ i.toRequest.op = op := by
  have hmem : (op, e) ∈ (raisingOperands K).map fun p => (p.1.toRequest.op, p.2) := by
    have hmarked : ∀ op : BitVec 3, errorMatrix op.toNat e = true →
        (op, e) ∈ (raisingOperands 0).map fun p => (p.1.toRequest.op, p.2) := by cases e <;> decide
    exact hmarked op h
  obtain ⟨⟨i, e'⟩, hi, heq⟩ := List.mem_map.mp hmem
  obtain ⟨hop, rfl⟩ := Prod.mk.inj heq
  exact ⟨i, hi, hop⟩

end Sys2Proof.Machine
end

section
/-! CERTIFICATE. The statements over several units: the round trips of Base32 and of the packed request, the invariants of the
machine, the equivalences of the operations, and the error matrix. -/

namespace Sys2Proof.Proofs

open Sys2Proof Sys2Proof.Machine

/-! ### Base32 -/

/-- Settles O28: an encoding's characters are the 5-bit groups of its bytes' bits, which decoding cuts into bytes again. -/
theorem roundTrip : Obligations.RoundTrip := b32Decode_b32Encode

/-- Settles O27: the loops put out the base-32 digits of the bytes' number with the fill bits behind it. -/
theorem encodeBits : Obligations.EncodeBits := by
  intro b
  rw [b32Encode_eq, b32Values, digitsBE, List.map_map]
  refine congrArg (· ++ _) (List.map_congr_left fun k hk => ?_)
  have hk := List.mem_range.mp hk
  have hpow : 32 ^ (charCount (8 * b.length) - 1 - k) = 2 ^ (5 * charCount (8 * b.length) - 5 * (k + 1)) := by
    rw [show 32 = 2 ^ 5 from rfl, ← Nat.pow_mul]
    congr 1
    omega
  rw [Function.comp, hpow]
  rfl

/-- Settles O26: a success of B32DEC carries what its text decodes to. -/
theorem decodeLength : Obligations.DecodeLength := by
  refine ⟨fun K n d r _ h => ?_, rfl⟩
  obtain ⟨hn, b, hb, rfl⟩ := opResult_b32dec_ok h
  obtain ⟨hlen, -⟩ := length_of_b32Decode_ok hb
  exact ⟨b.length, rfl, hlen, length_le_of_b32Decode_ok hn hb⟩

/-- Settles O29: the encoding of bytes that fit fits, and B32DEC reads from its buffer what B32ENC stored there. -/
theorem roundTripRequests : Obligations.RoundTripRequests := by
  intro K b _ hb
  rw [responseTo_reqB32enc hb]
  refine ⟨_, _, rfl, rfl, textWf_memWrite (length_b32Encode_le hb), responseTo_b32dec_b32Encode hb, ?_⟩
  rw [responseTo_b32dec_b32Encode hb]
  exact dataValue_ofData b

/-- Settles O46: the bytes drawn are the witness; 20 of them are whole groups of 5. -/
protected theorem genSecret : Obligations.GenSecret := by
  intro K hK
  refine ⟨fun _ => ⟨rfl, rfl⟩, fun f n _ hn => ⟨drawBytes f n, length_drawBytes f n, fun _ => getD_drawBytes f, rfl,
    dataWf_memWrite (by rwa [length_drawBytes]), genSecret_some f hn⟩, fun f => ?_⟩
  have h20 : 20 ≤ Config.KEY_MAX K := by rw [Config.KEY_MAX]; omega
  refine ⟨_, genSecret_some f h20, ?_, padChar_notMem_b32Encode ?_⟩
  · rw [length_b32Encode, length_drawBytes]
  · rw [length_drawBytes]
    decide

/-! ### HOTP and TOTP -/

/-- Settles O41: both texts are the low decimal digits of one value. -/
theorem fewerDigitsAreASuffix : Obligations.FewerDigitsAreASuffix := by
  intro K d m n rm rn _ hnm hm hn
  obtain rfl := eq_successResponse hm
  obtain rfl := eq_successResponse hn
  refine ⟨?_, ?_, _, _, textValue_ofTrunc _ _, textValue_ofTrunc _ _, otpText_eq_drop _ hnm⟩
  · rw [successResponse, successResponse, Response.ofTrunc_rval, Response.ofTrunc_rval]
  · rw [successResponse, Response.ofTrunc_rtextLen, storedText, length_otpText]

/-- Settles O42: HMAC makes HOTP's first two checks, TRUNC the third, on the digest that HMAC's response carries. -/
protected theorem hotpByUnits : Obligations.HotpByUnits := fun _ _ _ _ _ _ => hotpByUnits_eq

/-- Settles O43: B32DEC and TSTEP make TOTP's first three checks, HOTP by units the others. -/
protected theorem totpByUnits : Obligations.TotpByUnits := fun _ _ _ w p _ _ => totpByUnits_eq w p

/-- Settles O44: TOTP reads `now` in TSTEP's quotient alone. -/
theorem windowStability : Obligations.WindowStability := fun _ _ _ _ _ _ _ _ h => responseTo_totp_congr h

/-! ### The machine as a whole -/

/-- Settles O47: the phase's part of the invariant by the kind of the edge, the inputs' part because a step uses one up. -/
theorem invariantKept : Obligations.InvariantKept :=
  ⟨fun s _ hs h => inv_of_step Config.four_le_K hs ((step_eq_stepFor s).symm.trans h), fun _ _ _ hK => inv_of_step hK⟩

/-- Settles O48: the buffers after a step are those of before, of the request presented, or of a sound response. -/
theorem memoryCanonicalKept : Obligations.MemoryCanonicalKept :=
  ⟨fun s _ hs h => memoryWf_of_step Config.four_le_K hs ((step_eq_stepFor s).symm.trans h),
    fun _ hK => ⟨rfl, fun _ _ => memoryWf_of_step hK⟩⟩

/-- Settles O49: the invariant excludes BUSY without a request, the one phase without a step. -/
theorem neverStops : Obligations.NeverStops := by
  refine ⟨fun s hs => ?_, fun _ _ _ => safeStep_of_inv⟩
  obtain ⟨t, ht⟩ := safeStep_of_inv hs
  exact ⟨t, (step_eq_stepFor s).trans ht⟩

/-- Settles O2: nothing is held or presented in the reset state. -/
theorem resetInvariant : Obligations.ResetInvariant := fun _ _ => rfl

/-- Settles O3: the laws of the step, and a fetched word is a latched request with `rst` low. -/
theorem stepRunsDecoded : Obligations.StepRunsDecoded := by
  refine ⟨fun _ _ => step_complete, fun s nbits w i h => ?_, step_eq_stepFor, exec_eq_execFor,
    fun _ _ _ _ => stepFor_complete⟩
  rw [State.withFetchWord, step_complete (s.latched_edgeIn_rst _) rfl (Nat.le_refl _) rfl, decode_of_decodeTableWord h]

/-- Settles O51: the kinds of edge that end in BUSY, and an induction on the edges at which a response is held. -/
theorem oneAtATime : Obligations.OneAtATime := by
  refine ⟨fun _ _ => busy_of_step, fun n s hs h => ?_⟩
  obtain ⟨t, ht, hdone, hresp⟩ := stepN_held hs (State.heldFor_of_forall (n := n) h)
  exact ⟨t, ht, hdone, by rw [State.reqReady_eq, hdone]; rfl, hresp⟩

/-- Settles O52: outside IDLE no kind of edge reads the request port. -/
theorem portIgnoredAfterAccept : Obligations.PortIgnoredAfterAccept :=
  fun _ _ _ hs hst hcmd hresp hleft hrst hready h => step_sameCore hs ⟨hst, hcmd, hresp, hleft⟩ hrst hready h

/-- Settles O53: the response is held, and the ports show what a held response has. -/
theorem responseReadStable : Obligations.ResponseReadStable := by
  intro s n hs hwf h
  obtain ⟨t, ht, hdone, hresp⟩ := stepN_held hs h
  have hshow := ports_show_resp (K := Config.K) (s := t) (hresp ▸ hwf)
  simp only [State.respErr, State.respRtextLen, State.respRdataLen, State.respRval, State.respRctr, State.respRtextLane,
    State.respRdataLane, hresp] at hshow
  exact ⟨t, ht, decide_eq_true hdone, hshow⟩

/-- Settles O54: an ended run with nothing held is kept by every edge. -/
theorem endedStaysEnded : Obligations.EndedStaysEnded := by
  intro n s hinv h
  obtain ⟨t, ht, hended, hcmd, hresp⟩ := stepN_endedEmpty (n := n) (endedEmpty_of_inv hinv h)
  obtain ⟨hidle, -⟩ := State.ended_iff.mp hended
  exact ⟨t, ht, hidle, hcmd, hresp, by rw [State.respValid_eq, hidle]; rfl, hended⟩

/-! ### Results and errors -/

/-- Settles O18: every operation ends with COMPLETE, which writes all of the state but `resp` whatever the operation. -/
theorem errorsLeaveNothing : Obligations.ErrorsLeaveNothing := by
  refine ⟨fun i e s t he h => ?_, fun i j s t u ht hu => ?_⟩
  · rw [exec_eq, he] at h
    cases h
    rfl
  · rw [exec_eq] at ht hu
    cases ht
    cases hu
    exact ⟨rfl, rfl⟩

/-- Settles O19: a success writes its stored results and no other register; before it no register has a value. -/
theorem resultFrame : Obligations.ResultFrame := by
  intro i s hs
  obtain ⟨htext, hdata, htextLen, hdataLen, hval, hctr⟩ := State.registers_of_none hs
  simp only [htext, hdata, htextLen, hdataLen, hval, hctr, ite_getElem?_none]
  refine ⟨_, exec_eq i s, fun r hr => ?_, fun e he => ?_, rfl⟩
  · obtain ⟨-, wtextLen, -, wdataLen, -, wval, wctr⟩ := succeedsFor_of_opResult_ok hr
    have hnone {α : Type} {v : Option α} {b : Bool} (hv : v.isSome = b) (hb : b = false) : v = none :=
      Option.not_isSome_iff_eq_none.mp (by simp [hv, hb])
    rw [hr]
    refine ⟨fun k => ?_, fun k => ?_, hnone wtextLen, hnone wdataLen, hnone wval, hnone wctr⟩
    · rw [respond_ok, State.complete_respRtextLane, eq_successResponse hr, textLane_successResponse]
    · rw [respond_ok, State.complete_respRdataLane, eq_successResponse hr, dataLane_successResponse]
  · rw [he]
    exact ⟨fun _ => ⟨rfl, rfl⟩, rfl, rfl, rfl, rfl⟩

/-- Settles O22: an error raised is a cause of the operation, which the matrix marks; each pair marked has its operands. -/
protected theorem errorMatrix : Obligations.ErrorMatrix := by
  refine ⟨fun K op e hK => ⟨fun h => ?_, fun ⟨i, hop, h⟩ => hop ▸ errorMatrix_of_opResult h⟩, fun op e h => ?_⟩
  · obtain ⟨i, hi, hop⟩ := exists_raisingOperands (K := K) h
    exact ⟨i, hop, opResult_raisingOperands hK _ hi⟩
  · obtain ⟨i, hi, hop⟩ := exists_raisingOperands (K := Config.K) h
    exact ⟨i, wf_raisingOperands _ hi, hop, opResult_raisingOperands Config.four_le_K _ hi⟩

/-! ### The packed request -/

/-- Settles O55: an operation's bytes hold its request's word, the word its request, and the request names the operation. -/
theorem decodeEncode : Obligations.DecodeEncode := fun _ _ _ => decodeBytes_encode

/-- Settles O56: the fields cut from a word pack to it again, and packing keeps well-formed requests apart. -/
theorem packedWordRoundTrip : Obligations.PackedWordRoundTrip :=
  ⟨by decide, fun _ _ _ h => ⟨Request.toWord_ofWord h, Request.wf_ofWord _ _⟩, fun _ _ _ => Request.ofWord_toWord⟩

/-- Settles O57: 439 bytes have exactly the bits of a request, so no bit stands above its last field. -/
theorem decodeRefuses : Obligations.DecodeRefuses := by
  have hbytes : reqBytes Config.K = 439 := by decide
  have hbits : reqBits Config.K = 8 * 439 := by decide
  refine fun bs => ⟨fun h => ?_, fun h => ?_, fun h => ?_⟩
  · rw [decodeBytes, hbytes, if_pos h]
  · rw [decodeBytes, hbytes, if_neg h.not_gt, if_pos h]
  · have hlt : lanesToNat bs < 2 ^ reqBits Config.K := by
      rw [hbits, Nat.pow_mul, ← h]
      exact lanesToNat_lt bs
    rw [decodeBytes_of_length (h.trans hbytes.symm), decodeWord_of_lt hlt]
    exact ⟨_, rfl, wf_decode (Request.wf_ofWord _ _)⟩

/-- Settles O58: the decoder is evaluated on each word. -/
theorem sampleWords : Obligations.SampleWords := by
  unfold Obligations.SampleWords
  decide

/-- Settles O59: each example is evaluated; the empty text is refused before `now` is read. -/
theorem workedExamples : Obligations.WorkedExamples :=
  ⟨by decide +kernel, by decide +kernel, by decide +kernel, fun _ => rfl, by decide +kernel, rfl⟩

end Sys2Proof.Proofs
end
